-- ==== Sys2Proof/Word.lean ====
section
/-! DEFINITION. The words QANC moves (spec/00_scope.md R17) and their plainest reinterpretations. -/

namespace Sys2Proof

/-- A 64-bit register, operand or result word (R7 `XLEN`, R17). -/
abbrev Word := BitVec 64

/-- A 32-bit Q1.31 sample (R7 `SLEN`, R17). -/
abbrev Sample := BitVec 32

/-- One byte of the window's byte view (spec/20_memory.md R49). -/
abbrev Byte := BitVec 8

end Sys2Proof
end

