-- ==== Sys2Proof/Config.lean ====
section
/-! DEFINITION. What the platform fixes and the spec leaves open (spec/00_scope.md R7, decisions D8 and D17), and the
one value the spec leaves free (spec/70_reset_and_hazards.md R160). None of them has a body a proof could see. -/

namespace Sys2Proof

/-- Which 32-byte block of the host's address space the register window occupies (log entry 1). -/
opaque Config.windowBlock : Nat

/-- `BASE` (R45): a multiple of 32, fixed by the platform, open in the spec (D8). -/
def Config.base : Nat := 32 * Config.windowBlock

/-- How many bus masters there are beside the first (log entry 2). -/
opaque Config.furtherMasters : Nat

/-- The number of bus masters (R7, D17): open, at least 1. -/
def Config.masterCount : Nat := Config.furtherMasters + 1

/-- FREE VALUE: what the host finds in a read that a reset cut short (R160 "returns nothing the host may use",
spec/93_implementation_defined.md U20 "any value"; log entry 6). Its argument is the index of the host's step, so that
two such reads need not agree. -/
opaque Config.cutReadValue : Nat → Word

end Sys2Proof
end

