-- ==== Sys2Proof/Machine/Arith.lean ====
section
/-! DEFINITION. Exact arithmetic (spec/00_scope.md R18, R20, R21; spec/40_codec.md R81). Every finite binary64 value,
`PI_C` and `TWO_PI_C` is a whole multiple of the QUANTUM 2^-1074, the smallest positive binary64 value, so a real of the
spec is held as the integer number of its quanta; a rational about to be rounded is held as a numerator and a positive
denominator (R18 "a pair of unbounded integers"; log entry 10). Sys2Proof/Exact.lean has the same formulas over ℚ. -/

namespace Sys2Proof.Machine

/-- `PI_N` (R21): the integer nearest π · 2^62. -/
def piN : Nat := 0xC90FDAA22168C235

/-- `PI_C` = `PI_N / 2^62` (R21), in quanta: `PI_N · 2^(1074 - 62)`. -/
def piC : Nat := piN <<< 1012

/-- `TWO_PI_C` = `2 · PI_C` (R21), in quanta. -/
def twoPiC : Nat := 2 * piC

/-- One radian, in quanta: the denominator that turns quanta into a rational number of radians. -/
def quantaPerRadian : Nat := 1 <<< 1074

/-- `INT32_MAX` (R17). -/
def int32Max : Int := 2147483647

/-- `INT32_MIN` (R17). -/
def int32Min : Int := -2147483648

/-- `fmod_floor(a, m)` for `m > 0` (R18). -/
def fmodFloor (a m : Int) : Int := a - m * (a / m)

/-- `reduce` (R81), on quanta. -/
def reduce (v : Int) : Int := piC - fmodFloor (piC - v) twoPiC

/-- `rint_even(num / den)` (R18), for `den > 0`. -/
def rintEven (num : Int) (den : Nat) : Int :=
  if 2 * (num % den) < den then num / den
  else if den < 2 * (num % den) then num / den + 1
  else if (num / den) % 2 = 0 then num / den
  else num / den + 1

/-- `sat32` (R18). -/
def sat32 (k : Int) : Int :=
  if int32Max < k then int32Max else if k < int32Min then int32Min else k

/-- `floor(log2(num / den))` for positive `num` and `den` (R20). -/
def floorLog2 (num den : Nat) : Int :=
  let l : Int := (num.log2 : Int) - (den.log2 : Int)
  if den <<< l.toNat ≤ num <<< (-l).toNat then l else l - 1

/-- A binary64 word from its sign, biased exponent and fraction (R19). -/
def packFloat (sign : Bool) (exponent fraction : Nat) : Word :=
  (BitVec.ofBool sign ++ BitVec.ofNat 11 exponent ++ BitVec.ofNat 52 fraction : BitVec (1 + 11 + 52))

/-- The last lines of `RNE` (R20): the word of sign `s` and magnitude `n · 2^(e - 52)`, with `n ≤ 2^53`: the carry of
the rounding into the next binade, then overflow, subnormal and normal words. -/
def packRounded (s : Bool) (n : Nat) (e : Int) : Word :=
  let n' := if n = 0x20000000000000 then 0x10000000000000 else n
  let e' := if n = 0x20000000000000 then e + 1 else e
  if 1023 < e' then packFloat s 0x7FF 0
  else if n' < 0x10000000000000 then packFloat s 0 n'
  else packFloat s (e' + 1023).toNat (n' - 0x10000000000000)

/-- `RNE(num / den)` (R20), for `den > 0`: one rounding to binary64, to nearest, ties to even. -/
def rne (num : Int) (den : Nat) : Word :=
  if num = 0 then 0x0000000000000000#64
  else
    let e := max (floorLog2 num.natAbs den) (-1022)
    packRounded (decide (num < 0)) (rintEven (num.natAbs <<< (52 - e).toNat : Nat) (den <<< (e - 52).toNat)).toNat e

end Sys2Proof.Machine
end

