-- ==== Sys2Proof/Machine/Operands.lean ====
section
/-! DEFINITION. The operand and result word formats (spec/30_encoding.md R62, R63; spec/00_scope.md R17, R19). -/

namespace Sys2Proof.Machine

/-- Bit 63 of a binary64 word (R19). -/
def signBit (b : Word) : Bool := b.getLsbD 63

/-- Bits 62:52, the biased exponent (R19). -/
def exponentField (b : Word) : Nat := (b.extractLsb' 52 11).toNat

/-- Bits 51:0, the fraction (R19). -/
def fractionField (b : Word) : Nat := (b.extractLsb' 0 52).toNat

/-- `isNaN` (R19). -/
def isNaN (b : Word) : Bool := exponentField b == 2047 && fractionField b != 0

/-- `isInf` (R19). -/
def isInf (b : Word) : Bool := exponentField b == 2047 && fractionField b == 0

/-- `isFinite` (R19). -/
def isFinite (b : Word) : Bool := exponentField b != 2047

/-- The magnitude of a finite binary64 word, in quanta: `m` for zero and subnormals, `(2^52 + m) · 2^(e - 1)` for
normal words (R19). -/
def magnitude (b : Word) : Nat :=
  if exponentField b = 0 then fractionField b
  else (0x10000000000000 + fractionField b) <<< (exponentField b - 1)

/-- `val` (R19), in quanta of 2^-1074 (log entry 10). R19 defines it for finite words only; no meaning uses it on another
(log entry 11). -/
def val (b : Word) : Int := if signBit b then -(magnitude b : Int) else (magnitude b : Int)

/-- `PI_F_BITS` (R21): the word of `RNE(PI_C)`. -/
def piFBits : Word := 0x400921FB54442D18#64

/-- `PI_F` (R21), in quanta. -/
def piF : Int := val piFBits

/-- `NEG_PI_F_BITS` (R21): `PI_F_BITS` with bit 63 set. -/
def negPiFBits : Word := 0xC00921FB54442D18#64

/-- `QNAN` (R21): the canonical quiet NaN. -/
def qNaN : Word := 0x7FF8000000000000#64

/-- The in-range test of `ENCODE` and `NORMALIZE`: `|val(x)| ≤ PI_F` (R82, R85, R100). -/
def inRange (x : Word) : Bool := decide (|val x| ≤ piF)

/-- Format S (R62): the sample in bits 31:0 of an operand word; bits 63:32 are not examined (R63). -/
def sampleOperand (v : Word) : Sample := v.extractLsb' 0 32

/-- The result format of `ENCODE` (R37): `sext_64`, bit 31 copied into bits 63:32 (R17). -/
def sampleResult (w : Sample) : Word := w.signExtend 64

end Sys2Proof.Machine
end

