-- ==== Sys2Proof/Syntax.lean ====
section
/-! DEFINITION. Instructions, register names, flags and host steps as data (spec/30_encoding.md R60 to R67). -/

namespace Sys2Proof

/-- A command (R60): the function selected in `CTRL.OP` together with the 64-bit operand word written to `WDATA`. One
constructor per row of opcode_table.json; no word is illegal as an operand (R63). -/
inductive Instr where
  /-- `op` = 00 (spec/42_control.md R120): no function selected; the operand is not interpreted. -/
  | none (v : Word)
  /-- `op` = 01 (spec/40_codec.md R82): the operand is a binary64 angle. -/
  | encode (x : Word)
  /-- `op` = 10 (spec/40_codec.md R90): the operand holds a Q1.31 sample in bits 31:0. -/
  | decode (v : Word)
  /-- `op` = 11 (spec/41_normalizer.md R100): the operand is a binary64 angle. -/
  | normalize (x : Word)
  deriving DecidableEq, Repr

/-- The operand word a command carries (R62). -/
def Instr.operand : Instr → Word
  | .none v => v
  | .encode x => x
  | .decode v => v
  | .normalize x => x

/-- The four registers of the window (spec/10_state.md R34). -/
inductive Reg where
  | ctrl
  | status
  | wdata
  | rdata
  deriving DecidableEq, Repr

/-- The four sticky flags of `STATUS` (spec/10_state.md R38, spec/60_exceptions.md R142 to R145). -/
inductive Flag where
  /-- Invalid operand: a NaN or an infinity (R142). -/
  | nv
  /-- The precondition of `ENCODE` violated (R143). -/
  | rng
  /-- An operand written with no function configured (R144). -/
  | ill
  /-- A result read with none pending (R145). -/
  | unr
  deriving DecidableEq, Repr

/-- The forms of a bus access that spec/20_memory.md R47 tells apart; only `single` can be admitted. -/
inductive AccessForm where
  | single
  | burst
  | exclusive
  | locked
  | fetch
  deriving DecidableEq, Repr

/-- The direction of an access and, for a write, its data (R67). -/
inductive Action where
  | read
  /-- The 64 data bits of a write. Only admitted (64-bit) writes ever have their data looked at (R47). -/
  | write (v : Word)
  deriving DecidableEq, Repr

/-- A host access as it arrives at the port (R67, R47). `offset` is the byte address relative to `BASE`, so that an
access outside the window can be written too (log entry 1). -/
structure Access where
  /-- Which master issued it; the unit does not look at it (spec/00_scope.md R8). -/
  master : Nat
  /-- Byte address minus `BASE`. -/
  offset : Int
  /-- Size in bytes, of the whole burst where it is one. -/
  bytes : Nat
  form : AccessForm
  action : Action
  deriving DecidableEq, Repr

/-- One step taken outside the unit (spec/00_scope.md R8): an access, a reset between accesses, or a reset that comes
instead of completing an access in progress (spec/70_reset_and_hazards.md R160). -/
inductive HostStep where
  | access (a : Access)
  | reset
  | resetDuring (a : Access)
  deriving DecidableEq, Repr

/-- A value the unit returned to a read, and the master that read it. -/
structure Response where
  master : Nat
  value : Word
  deriving DecidableEq, Repr

end Sys2Proof
end

