-- ==== Sys2Proof/Machine/State.lean ====
section
/-! DEFINITION. The machine's state, its reset, and the reasons a step can stop. -/

namespace Sys2Proof.Machine

/-- Why an access is not admitted (spec/20_memory.md R47). -/
inductive NotAdmitted where
  /-- An 8-, 16- or 32-bit access, or one wider than 64 bits. -/
  | width
  /-- A 64-bit access at an offset that is not one of the four registers'. -/
  | misaligned
  /-- A burst. -/
  | burst
  /-- An exclusive access. -/
  | exclusive
  /-- A locked access. -/
  | locked
  /-- An instruction fetch from the window (also R57). -/
  | fetch
  deriving DecidableEq, Repr

/-- The machine's faults: there are none. QANC has no traps (spec/60_exceptions.md R140), every operation completes
(R146), and every exceptional condition only sets a bit of `STATUS` (R141). -/
inductive Fault where
  deriving DecidableEq, Repr

/-- The reasons a step has no meaning. -/
inductive Refusal where
  /-- Raised by a refused arm of `exec` for an instruction without a meaning; no arm does so. Safe. -/
  | notModelled (mnemonic : String)
  /-- Raised by the port for an access that touches the window and is not admitted: "A model refuses it"
  (spec/20_memory.md R47). Safe: nothing is proved past it. -/
  | notAdmitted (why : NotAdmitted)
  deriving DecidableEq, Repr

/-- The 71 bits of the unit (spec/10_state.md R30), then the host agent's side of the port (R31). -/
structure State where
  /-- `CTRL.OP` (R35). -/
  op : BitVec 2
  /-- `STATUS.RRDY`, bit 0 (R38). -/
  rrdy : Bool
  /-- `STATUS.NV`, bit 1 (R38). -/
  nv : Bool
  /-- `STATUS.RNG`, bit 2 (R38). -/
  rng : Bool
  /-- `STATUS.ILL`, bit 3 (R38). -/
  ill : Bool
  /-- `STATUS.UNR`, bit 4 (R38). -/
  unr : Bool
  /-- `RDATA` (R37). -/
  rdata : Word
  /-- The model's own: the fault record of spec/60_exceptions.md R154, set by every raised flag, never cleared. -/
  faultRecorded : Bool
  /-- The host steps still to come, in the order in which they arrive at the port (spec/20_memory.md R52). -/
  pending : List HostStep
  /-- The index into the host's list of accesses: one up per host step, never wrapping (R31). -/
  hostIndex : Nat
  /-- The model's own: the values the unit returned to reads, newest first (log entry 12). -/
  responses : List Response
  deriving DecidableEq, Repr

/-- The state right after reset (spec/70_reset_and_hazards.md R160): all 71 bits zero, no host step pending. -/
def State.reset : State where
  op := 0b00#2
  rrdy := false
  nv := false
  rng := false
  ill := false
  unr := false
  rdata := 0x0000000000000000#64
  faultRecorded := false
  pending := []
  hostIndex := 0
  responses := []

end Sys2Proof.Machine
end

