-- ==== Sys2Proof/Machine/Ops.lean ====
section
/-! DEFINITION. The named operations on the state: raising a flag (the unit's whole exception mechanism), delivering a
result, the reset step, and the host's side of the port. -/

namespace Sys2Proof.Machine

/-- `raise <Flag>` (spec/60_exceptions.md R141, spec/00_scope.md R22): the flag's bit of `STATUS` becomes 1 and nothing
else of the unit changes. QANC has no traps (R140), so this is all an exception does: no control transfer (R151), no
return from one (R152). The fault record of R154 is set with it (log entry 5). -/
def State.raise (s : State) : Flag → State
  | .nv => { s with nv := true, faultRecorded := true }
  | .rng => { s with rng := true, faultRecorded := true }
  | .ill => { s with ill := true, faultRecorded := true }
  | .unr => { s with unr := true, faultRecorded := true }

/-- `for each flag in f: raise flag` (spec/40_codec.md R82, spec/41_normalizer.md R100). -/
def State.raiseAll (s : State) (fs : List Flag) : State := fs.foldl State.raise s

/-- `RDATA <- r; STATUS.RRDY <- 1`: an operation completes (spec/42_control.md R123). -/
def State.deliver (s : State) (r : Word) : State := { s with rdata := r, rrdy := true }

/-- `CTRL.OP <- op` (spec/42_control.md R121). -/
def State.setOp (s : State) (op : BitVec 2) : State := { s with op := op }

/-- `STATUS.RRDY <- 0` (spec/42_control.md R124). -/
def State.clearReady (s : State) : State := { s with rrdy := false }

/-- The reset step (spec/70_reset_and_hazards.md R160): all 71 bits of the unit become 0. The host agent's list, index
and responses are not the unit's, and the fault record is never cleared (spec/60_exceptions.md R154). -/
def State.unitReset (s : State) : State :=
  { s with op := 0b00#2, rrdy := false, nv := false, rng := false, ill := false, unr := false,
           rdata := 0x0000000000000000#64 }

/-- The unit returns `v` to the read of master `m`. -/
def State.respond (s : State) (m : Nat) (v : Word) : State :=
  { s with responses := { master := m, value := v } :: s.responses }

/-- The host's next step is taken off its list and the index advances by one (spec/10_state.md R31). -/
def State.takeStep (s : State) (rest : List HostStep) : State :=
  { s with pending := rest, hostIndex := s.hostIndex + 1 }

end Sys2Proof.Machine
end

