-- ==== Sys2Proof/Machine/Flags.lean ====
section
/-! DEFINITION. The words `CTRL` and `STATUS` as the host sees them, and every computation of a flag
(spec/10_state.md R35, R38). -/

namespace Sys2Proof.Machine

/-- The value of one flag of `STATUS`. -/
def State.flag (s : State) : Flag → Bool
  | .nv => s.nv
  | .rng => s.rng
  | .ill => s.ill
  | .unr => s.unr

/-- The bit of `STATUS` at which a flag stands (R38). -/
def flagBit : Flag → Nat
  | .nv => 1
  | .rng => 2
  | .ill => 3
  | .unr => 4

/-- `CTRL` as read (R35, spec/42_control.md R122): `zext_64(CTRL.OP)`. -/
def State.ctrlWord (s : State) : Word := s.op.setWidth 64

/-- `STATUS` as read (R38, spec/42_control.md R125): `zext_64({UNR, ILL, RNG, NV, RRDY})`. -/
def State.statusWord (s : State) : Word :=
  (BitVec.ofBool s.unr ++ BitVec.ofBool s.ill ++ BitVec.ofBool s.rng ++ BitVec.ofBool s.nv
    ++ BitVec.ofBool s.rrdy : BitVec (1 + 1 + 1 + 1 + 1)).setWidth 64

/-- Write one to clear (R38, spec/42_control.md R126): bits 1 to 4 of `v` clear `NV`, `RNG`, `ILL` and `UNR`; bit 0 and
bits 63:5 are ignored. -/
def State.clearFlags (s : State) (v : Word) : State :=
  { s with nv := s.nv && !v.getLsbD 1, rng := s.rng && !v.getLsbD 2,
           ill := s.ill && !v.getLsbD 3, unr := s.unr && !v.getLsbD 4 }

/-- The flags `ENCODE` raises (spec/40_codec.md R83): `NV` exactly for a NaN or an infinity, `RNG` exactly for a finite
operand with `|val| > PI_F`. -/
def encodeFlags (x : Word) : List Flag :=
  if !isFinite x then [.nv] else if inRange x then [] else [.rng]

/-- The flags `NORMALIZE` raises (spec/41_normalizer.md R101): `NV` exactly for a NaN or an infinity. -/
def normalizeFlags (x : Word) : List Flag :=
  if !isFinite x then [.nv] else []

/-- The 64-bit word a register holds, without the effects of an access; `WDATA` stores nothing and reads zero
(spec/42_control.md R127). -/
def State.regWord (s : State) : Reg → Word
  | .ctrl => s.ctrlWord
  | .status => s.statusWord
  | .wdata => 0x0000000000000000#64
  | .rdata => s.rdata

/-- The little-endian byte view of the window (spec/20_memory.md R49): byte `k` of the 32, seen by no admitted access. -/
def State.windowByte (s : State) (k : Nat) : Option Byte :=
  if k < 8 then some ((s.regWord .ctrl).extractLsb' (8 * k) 8)
  else if k < 16 then some ((s.regWord .status).extractLsb' (8 * (k - 8)) 8)
  else if k < 24 then some ((s.regWord .wdata).extractLsb' (8 * (k - 16)) 8)
  else if k < 32 then some ((s.regWord .rdata).extractLsb' (8 * (k - 24)) 8)
  else none

end Sys2Proof.Machine
end

