-- ==== Sys2Proof/Machine/Codec.lean ====
section
/-! DEFINITION. The fixed-point codec: `ENCODE` and `DECODE` (spec/40_codec.md). -/

namespace Sys2Proof.Machine

/-- The sample of an angle of `y` quanta (R82): `t = y · 2^31 / PI_C`, rounded to nearest even, saturated, as a 32-bit
two's complement word. -/
def quantize (y : Int) : Sample := BitVec.ofInt 32 (sat32 (rintEven (y * 2147483648) piC))

/-- The sample `encode(x)` returns (R82): 0 for a NaN or an infinity (R84), the angle itself inside the precondition, its
reduction outside it (R85). -/
def encodeSample (x : Word) : Sample :=
  if !isFinite x then 0x00000000#32
  else if inRange x then quantize (val x)
  else quantize (reduce (val x))

/-- `encode` (R82): a pure function of the operand word to a sample and the flags it raises (R80). -/
def encodeAngle (x : Word) : Sample × List Flag := (encodeSample x, encodeFlags x)

/-- `decode` (R90): `RNE(s · PI_N / 2^93)`, for the signed value `s` of the sample. -/
def decodeSample (w : Sample) : Word := rne (w.toInt * piN) (1 <<< 93)

/-- `ENCODE` (R82): effect of a write of `x` to `WDATA` while `CTRL.OP` = 01. -/
def execEncode (x : Word) (s : State) : Host.Outcome State Fault Refusal :=
  .next ((s.deliver (sampleResult (encodeAngle x).1)).raiseAll (encodeAngle x).2)

/-- `DECODE` (R90): effect of a write of `v` to `WDATA` while `CTRL.OP` = 10. No flag is raised (R91). -/
def execDecode (v : Word) (s : State) : Host.Outcome State Fault Refusal :=
  .next (s.deliver (decodeSample (sampleOperand v)))

end Sys2Proof.Machine
end

