-- ==== Sys2Proof/WellFormed.lean ====
section
/-! DEFINITION. Which commands, command words and accesses are well formed. -/

namespace Sys2Proof

/-- Every command is well formed: no command word is illegal (spec/30_encoding.md R64, R65) and every one of the 2^64
words is a legal operand of every function (R63; for `NONE` the operand is not interpreted). -/
def Instr.wellFormed : Instr → Bool
  | .none _ => true
  | .encode _ => true
  | .decode _ => true
  | .normalize _ => true

/-- A command word as software should write it: the reserved bits 63:2 zero (R61, R65). The unit accepts every word. -/
def commandWordWellFormed (c : Word) : Bool :=
  c.extractLsb' 2 62 == 0#62

/-- A mask of the pseudo-instruction `CLRF` (R68): bit 0 is zero. -/
def clrfMaskWellFormed (mask : Word) : Bool := !mask.getLsbD 0

/-- An admitted access (spec/20_memory.md R47): a single 64-bit access exactly at one of the four registers. -/
def Access.wellFormed (a : Access) : Bool :=
  a.form == .single && a.bytes == 8 && (a.offset == 0x00 || a.offset == 0x08 || a.offset == 0x10 || a.offset == 0x18)

/-- The access comes from one of the platform's masters (spec/00_scope.md R7, R8). The unit does not check it. -/
def Access.fromKnownMaster (a : Access) : Bool :=
  decide (a.master < Config.masterCount)

end Sys2Proof
end

