-- ==== Sys2Proof/Decode.lean ====
section
/-! DEFINITION. The decoder of commands and, after it, the encoder (spec/30_encoding.md R61, R62, R64). -/

namespace Sys2Proof

/-- The `op` field of a command word (R61): bits 1:0; bits 63:2 are ignored (R65). -/
def opField (c : Word) : BitVec 2 := c.extractLsb' 0 2

/-- The opcode map (R64), on the stored field `CTRL.OP` and the operand word. -/
def decodeOp (op : BitVec 2) (v : Word) : Instr :=
  if op = 0b00#2 then .none v
  else if op = 0b01#2 then .encode v
  else if op = 0b10#2 then .decode v
  else .normalize v

/-- Decoding of a command word with its operand word: total (R64, R66). -/
def decodeWords (c v : Word) : Instr := decodeOp (opField c) v

/-- The little-endian bytes of the low `8 * n` bits of `k` (spec/20_memory.md R49), lowest address first. -/
def leBytes : Nat → Nat → List Byte
  | 0, _ => []
  | n + 1, k => BitVec.ofNat 8 (k % 256) :: leBytes n (k / 256)

/-- The number whose little-endian bytes are given (R49). -/
def leNumber : List Byte → Nat
  | [] => 0
  | b :: bs => b.toNat + 256 * leNumber bs

/-- Why bytes are no command: the command word or the operand word is cut short (log entry 3). -/
inductive DecodeError where
  /-- Fewer than the 8 bytes of a command word. Safe: nothing is decoded. -/
  | truncatedCommandWord
  /-- A command word, but fewer than the 8 bytes of an operand word. Safe: nothing is decoded. -/
  | truncatedOperandWord
  deriving DecidableEq, Repr

/-- A command read from bytes, with the bytes that follow it: the command word, then the operand word, each
little-endian (R49, R60; the byte form is log entry 3). -/
def decode (bytes : List Byte) : Except DecodeError (Instr × List Byte) :=
  if bytes.length < 8 then .error .truncatedCommandWord
  else if bytes.length < 16 then .error .truncatedOperandWord
  else
    .ok (decodeWords (BitVec.ofNat 64 (leNumber (bytes.take 8))) (BitVec.ofNat 64 (leNumber ((bytes.drop 8).take 8))),
      bytes.drop 16)

/-- The `op` value of a command (R64). -/
def Instr.op : Instr → BitVec 2
  | .none _ => 0b00#2
  | .encode _ => 0b01#2
  | .decode _ => 0b10#2
  | .normalize _ => 0b11#2

/-- The command word of a command, reserved bits zero (R61). -/
def Instr.commandWord (i : Instr) : Word := i.op.setWidth 64

/-- The two words of a command: the command word, then the operand word (R60). -/
def encode (i : Instr) : Word × Word := (i.commandWord, i.operand)

/-- The bytes of a command (log entry 3). -/
def encodeBytes (i : Instr) : List Byte :=
  leBytes 8 (encode i).1.toNat ++ leBytes 8 (encode i).2.toNat

/-- The instruction the decoder reads from an instruction whose bits are `w`, numbered as opcode_table.json numbers them
(the command word is bits 63:0, the operand word bits 127:64); bits from `nbits` up are zero. -/
def decodeTableWord (nbits w : Nat) : Option Instr :=
  match decode (leBytes 16 (w % 2 ^ nbits)) with
  | .ok (i, _) => some i
  | .error _ => none

end Sys2Proof
end

