-- ==== Sys2Proof/Machine/Control.lean ====
section
/-! DEFINITION. `NONE` and seven of the eight register accesses (spec/42_control.md); the eighth, the write of `WDATA`,
performs an instruction and stands in Machine/Port.lean, after the dispatch. A read gives the value it returns and the
state it leaves. -/

namespace Sys2Proof.Machine

/-- `NONE` (R120): effect of a write of `v` to `WDATA` while `CTRL.OP` = 00: `ILL` is raised and `v` is discarded. -/
def execNone (_v : Word) (s : State) : Host.Outcome State Fault Refusal :=
  .next (s.raise .ill)

/-- Write of `CTRL` (R121): `CTRL.OP <- v[1:0]`; bits 63:2 are ignored. -/
def writeCtrl (v : Word) (s : State) : State := s.setOp (opField v)

/-- Read of `CTRL` (R122): no side effect. -/
def readCtrl (s : State) : Word × State := (s.ctrlWord, s)

/-- Read of `RDATA` (R124): the word `RDATA` holds; `UNR` if `RRDY` was 0; `RRDY` becomes 0. -/
def readRdata (s : State) : Word × State :=
  (s.rdata, (if s.rrdy then s else s.raise .unr).clearReady)

/-- Read of `STATUS` (R125): no side effect. -/
def readStatus (s : State) : Word × State := (s.statusWord, s)

/-- Write of `STATUS` (R126): write one to clear. -/
def writeStatus (v : Word) (s : State) : State := s.clearFlags v

/-- Read of `WDATA` (R127): zero, no side effect. -/
def readWdata (s : State) : Word × State := (s.regWord .wdata, s)

/-- Write of `RDATA` (R128): ignored. -/
def writeRdata (_v : Word) (s : State) : State := s

end Sys2Proof.Machine
end

