-- ==== Sys2Proof/Machine/Normalizer.lean ====
section
/-! DEFINITION. The angle normalizer: `NORMALIZE` (spec/41_normalizer.md). -/

namespace Sys2Proof.Machine

/-- The word `normalize(x)` returns (R100): `QNAN` for a NaN or an infinity (R102), the operand bit for bit inside the
range (R103), otherwise the reduced angle rounded once. -/
def normalizeWord (x : Word) : Word :=
  if !isFinite x then qNaN
  else if inRange x then x
  else rne (reduce (val x)) quantaPerRadian

/-- `normalize` (R100): a pure function of the operand word to a word and the flags it raises. -/
def normalizeAngle (x : Word) : Word × List Flag := (normalizeWord x, normalizeFlags x)

/-- `NORMALIZE` (R100): effect of a write of `x` to `WDATA` while `CTRL.OP` = 11. -/
def execNormalize (x : Word) (s : State) : Host.Outcome State Fault Refusal :=
  .next ((s.deliver (normalizeAngle x).1).raiseAll (normalizeAngle x).2)

end Sys2Proof.Machine
end

