-- ==== Sys2Proof/Machine/Dispatch.lean ====
section
/-! DEFINITION. One arm per instruction. -/

namespace Sys2Proof.Machine

def exec (i : Instr) (s : State) : Host.Outcome State Fault Refusal :=
  match i with
  | .none v => Sys2Proof.Machine.execNone v s
  | .encode x => Sys2Proof.Machine.execEncode x s
  | .decode v => Sys2Proof.Machine.execDecode v s
  | .normalize x => Sys2Proof.Machine.execNormalize x s

end Sys2Proof.Machine
end

