-- ==== Sys2Proof/Machine/Port.lean ====
section
/-! DEFINITION. The port: which register an access reaches, what a non-admitted access is called, and what each host step
does (spec/20_memory.md R45 to R47, R52; spec/42_control.md R121 to R128; spec/70_reset_and_hazards.md R160). -/

namespace Sys2Proof.Machine

/-- The offset of a register in the window (spec/10_state.md R34). -/
def regOffset : Reg → Int
  | .ctrl => 0x00
  | .status => 0x08
  | .wdata => 0x10
  | .rdata => 0x18

/-- The register at an offset (spec/10_state.md R34, spec/20_memory.md R45). -/
def regAt (offset : Int) : Option Reg :=
  if offset = 0x00 then some .ctrl
  else if offset = 0x08 then some .status
  else if offset = 0x10 then some .wdata
  else if offset = 0x18 then some .rdata
  else none

/-- Does the access touch one of the 32 bytes of the window (R45, R47)? -/
def touchesWindow (a : Access) : Bool :=
  decide (0 < a.bytes) && decide (a.offset < 32) && decide (0 < a.offset + a.bytes)

/-- Why an access that touches the window is not admitted, if it is not (R47). Its form is named first, then its width,
then its alignment (log entry 8). -/
def whyNotAdmitted (a : Access) : Option NotAdmitted :=
  match a.form with
  | .burst => some .burst
  | .exclusive => some .exclusive
  | .locked => some .locked
  | .fetch => some .fetch
  | .single =>
    if a.bytes ≠ 8 then some .width
    else if (regAt a.offset).isNone then some .misaligned
    else none

/-- The address of an access on the host's bus (R45). -/
def busAddress (a : Access) : Int := (Config.base : Int) + a.offset

/-- `MemRead(addr, n)` as it arrives at the port (spec/00_scope.md R22), from master `m`. -/
def memRead (m addr n : Nat) : Access :=
  { master := m, offset := (addr : Int) - (Config.base : Int), bytes := n, form := .single, action := .read }

/-- `MemWrite(addr, n, v)` as it arrives at the port (spec/00_scope.md R22), from master `m`. -/
def memWrite (m addr n : Nat) (v : Word) : Access :=
  { master := m, offset := (addr : Int) - (Config.base : Int), bytes := n, form := .single, action := .write v }

/-- `RegRead(off)` (R22, spec/30_encoding.md R67) of a register, from master `m`. -/
def regRead (m : Nat) (r : Reg) : Access :=
  { master := m, offset := regOffset r, bytes := 8, form := .single, action := .read }

/-- `RegWrite(off, v)` (R22, spec/30_encoding.md R67) of a register, from master `m`. -/
def regWrite (m : Nat) (r : Reg) (v : Word) : Access :=
  { master := m, offset := regOffset r, bytes := 8, form := .single, action := .write v }

/-- The instruction a write of `v` to `WDATA` performs (spec/42_control.md R123): the command of the word `CTRL` holds and
the operand `v`. -/
def fetchedInstr (s : State) (v : Word) : Instr := decodeWords s.ctrlWord v

/-- Write of `WDATA` (spec/42_control.md R123): the selected operation is performed within the write. -/
def writeWdata (v : Word) (s : State) : Host.Outcome State Fault Refusal := exec (fetchedInstr s v) s

/-- The read of a register: the value returned and the state left (spec/42_control.md R122, R124, R125, R127). -/
def performRead (r : Reg) (s : State) : Word × State :=
  match r with
  | .ctrl => readCtrl s
  | .status => readStatus s
  | .wdata => readWdata s
  | .rdata => readRdata s

/-- The write of a register (spec/42_control.md R121, R123, R126, R128). -/
def performWrite (r : Reg) (v : Word) (s : State) : Host.Outcome State Fault Refusal :=
  match r with
  | .ctrl => .next (writeCtrl v s)
  | .status => .next (writeStatus v s)
  | .wdata => writeWdata v s
  | .rdata => .next (writeRdata v s)

/-- An admitted access of a register; a read answers its value to the master that issued it. -/
def performOnReg (a : Access) (r : Reg) (s : State) : Host.Outcome State Fault Refusal :=
  match a.action with
  | .read => .next ((performRead r s).2.respond a.master (performRead r s).1)
  | .write v => performWrite r v s

/-- An access: outside the window it is none of QANC's and leaves the machine as it is (R46, log entry 7); touching the
window it is performed if admitted and refused by name if not (R47). -/
def performAccess (a : Access) (s : State) : Host.Outcome State Fault Refusal :=
  if touchesWindow a then
    match whyNotAdmitted a with
    | some why => .refused (.notAdmitted why)
    | none =>
      match regAt a.offset with
      | some r => performOnReg a r s
      | none => .refused (.notAdmitted .misaligned)
  else .next s

/-- A reset that comes instead of completing an access (spec/70_reset_and_hazards.md R160, spec/60_exceptions.md R149):
the access has no effect and reset wins; an admitted read returns a free value, which the host may not use
(spec/93_implementation_defined.md U20; log entry 6). -/
def cutShort (a : Access) (s : State) : State :=
  if touchesWindow a && (whyNotAdmitted a).isNone && (a.action == .read) then
    s.unitReset.respond a.master (Config.cutReadValue s.hostIndex)
  else s.unitReset

/-- What a host step does, once it has been taken off the host's list. -/
def performHostStep (h : HostStep) (s : State) : Host.Outcome State Fault Refusal :=
  match h with
  | .access a => performAccess a s
  | .reset => .next s.unitReset
  | .resetDuring a => .next (cutShort a s)

/-- One step: the next host step in order of arrival (spec/20_memory.md R52) is taken off the list and performed. With
none pending the unit waits and nothing changes (log entry 4). -/
def stepHost (s : State) : Host.Outcome State Fault Refusal :=
  match s.pending with
  | [] => .next s
  | h :: rest => performHostStep h (s.takeStep rest)

/-- The operand word of an instruction whose bits, numbered as opcode_table.json numbers them, are `w` below `nbits` and
zero above: bits 127:64. -/
def tableOperand (nbits w : Nat) : Word := BitVec.ofNat 64 ((w % 2 ^ nbits) >>> 64)

/-- The command word of such an instruction: bits 63:0. -/
def tableCommandWord (nbits w : Nat) : Word := BitVec.ofNat 64 (w % 2 ^ nbits)

/-- The instruction placed so that the very next step performs it: its function selected in `CTRL.OP`, and the write of
its operand to `WDATA` at the head of the host's list (log entry 4). -/
def placeCommand (s : State) (nbits w : Nat) : State :=
  { s with op := opField (tableCommandWord nbits w),
           pending := .access (regWrite 0 .wdata (tableOperand nbits w)) :: s.pending }

end Sys2Proof.Machine
end

