-- ==== Sys2Proof/Machine/Step.lean ====
section
/-! DEFINITION. The step, and the placing of an instruction where the next step performs it. -/

namespace Sys2Proof.Machine

/-- One step of the machine: the host's next access or reset, or nothing where none is pending. -/
def step (s : State) : Host.Outcome State Fault Refusal := stepHost s

/-- `s` with the instruction whose bits are `w` placed so that the very next step performs it: `CTRL.OP` holds its
function and the write of its operand to `WDATA` arrives next (log entry 4). -/
def State.withFetchWord (s : State) (nbits w : Nat) : State := placeCommand s nbits w

end Sys2Proof.Machine
end

