-- ==== Sys2Proof/Machine/Assembler.lean ====
section
/-! DEFINITION. The notation for host programs and the pseudo-instructions (spec/30_encoding.md R67, R68), as lists of host
steps issued by one master `m`. -/

namespace Sys2Proof.Machine

/-- `WR <reg>, <value>` (R67). -/
def wr (m : Nat) (r : Reg) (v : Word) : HostStep := .access (regWrite m r v)

/-- `RD <reg>` (R67). -/
def rd (m : Nat) (r : Reg) : HostStep := .access (regRead m r)

/-- Configure, write, read (R60): the three steps by which a host issues a command. -/
def issue (m : Nat) (i : Instr) : List HostStep :=
  [wr m .ctrl (encode i).1, wr m .wdata (encode i).2, rd m .rdata]

/-- `ENCODE x` (R68). -/
def asmEncode (m : Nat) (x : Word) : List HostStep := issue m (.encode x)

/-- `DECODE s` (R68): the operand is `zext_64(s)`. -/
def asmDecode (m : Nat) (s : Sample) : List HostStep := issue m (.decode (s.setWidth 64))

/-- `NORMALIZE x` (R68). -/
def asmNormalize (m : Nat) (x : Word) : List HostStep := issue m (.normalize x)

/-- `CFG <op>` (R68). -/
def asmCfg (m : Nat) (op : BitVec 2) : List HostStep := [wr m .ctrl (op.setWidth 64)]

/-- `CLRF <mask>` (R68); the notation asks for a mask with bit 0 zero (WellFormed.lean), which the unit ignores anyway. -/
def asmClrf (m : Nat) (mask : Word) : List HostStep := [wr m .status mask]

/-- `CLRALL` (R68). -/
def asmClrall (m : Nat) : List HostStep := [wr m .status 0x000000000000001E#64]

/-- `ANGLE2SAMPLE x` (R68): `NORMALIZE x` giving `y`, then `ENCODE y`. -/
def asmAngle2Sample (m : Nat) (x : Word) : List HostStep :=
  asmNormalize m x ++ asmEncode m (normalizeAngle x).1

end Sys2Proof.Machine
end

