-- ==== Sys2Proof/Exact.lean ====
section
/-! DEFINITION. The spec's pseudocode over the rationals ℚ, as it stands (spec/00_scope.md R17 to R21, spec/40_codec.md R81,
R82, R90, spec/41_normalizer.md R100). The statements compare the machine, which computes on integers, with these. The
machine never calls them. -/

namespace Sys2Proof.Exact

/-- `PI_C` = `PI_N / 2^62` (R21). -/
def piC : ℚ := 0xC90FDAA22168C235 / 2 ^ 62

/-- `TWO_PI_C` (R21). -/
def twoPiC : ℚ := 2 * piC

/-- `UNIT` = `PI_C / 2^31` (R21): the angle of one sample step. -/
def unit : ℚ := piC / 2 ^ 31

/-- `SCALE_C` = `2^31 / PI_C` (R21): sample steps per radian. -/
def scaleC : ℚ := 2 ^ 31 / piC

/-- `rint_even` (R18). -/
def rintEven (q : ℚ) : ℤ :=
  if q - ⌊q⌋ < 1 / 2 then ⌊q⌋
  else if 1 / 2 < q - ⌊q⌋ then ⌊q⌋ + 1
  else if 2 ∣ ⌊q⌋ then ⌊q⌋
  else ⌊q⌋ + 1

/-- `fmod_floor` (R18). -/
def fmodFloor (a m : ℚ) : ℚ := a - m * ⌊a / m⌋

/-- `sat32` (R18): the integer confined to `INT32_MIN` .. `INT32_MAX`. -/
def sat32 (k : ℤ) : ℤ := max (-2 ^ 31) (min k (2 ^ 31 - 1))

/-- `isFinite` (R19): the biased exponent, bits 62:52, is not 2047. -/
def isFinite (b : Word) : Bool := b.extractLsb' 52 11 != 2047#11

/-- `val` (R19), for finite words. -/
def val (b : Word) : ℚ :=
  let s : ℚ := if b.getLsbD 63 then -1 else 1
  let e : ℕ := (b.extractLsb' 52 11).toNat
  let m : ℚ := (b.extractLsb' 0 52).toNat
  if e = 0 then s * m * 2 ^ (-1074 : ℤ) else s * (2 ^ 52 + m) * 2 ^ ((e : ℤ) - 1075)

/-- `PI_F` (R21). -/
def piF : ℚ := 7074237752028440 / 2 ^ 51

/-- `RNE` (R20). -/
def RNE (q : ℚ) : Word :=
  if q = 0 then 0x0000000000000000#64
  else
    let s : BitVec 1 := if q < 0 then 1#1 else 0#1
    let a := |q|
    let e₀ := max (Int.log 2 a) (-1022)
    let n₀ := rintEven (a / 2 ^ (e₀ - 52))
    let n := if n₀ = 2 ^ 53 then 2 ^ 52 else n₀
    let e := if n₀ = 2 ^ 53 then e₀ + 1 else e₀
    if 1023 < e then (s ++ 0x7FF#11 ++ 0#52 : BitVec (1 + 11 + 52))
    else if n < 2 ^ 52 then (s ++ 0#11 ++ BitVec.ofInt 52 n : BitVec (1 + 11 + 52))
    else (s ++ BitVec.ofInt 11 (e + 1023) ++ BitVec.ofInt 52 (n - 2 ^ 52) : BitVec (1 + 11 + 52))

/-- `reduce` (R81). -/
def reduce (v : ℚ) : ℚ := piC - fmodFloor (piC - v) twoPiC

/-- The angle `y` that `encode` converts (R82): the operand's value inside the precondition, its reduction outside. -/
def encodedAngle (x : Word) : ℚ := if |val x| ≤ piF then val x else reduce (val x)

/-- The integer `k` that `encode` saturates (R82). -/
def encodedInteger (x : Word) : ℤ := rintEven (encodedAngle x * 2 ^ 31 / piC)

/-- `encode` (R82). -/
def encode (x : Word) : Sample × List Flag :=
  if isFinite x = false then (0x00000000#32, [.nv])
  else (BitVec.ofInt 32 (sat32 (encodedInteger x)), if |val x| ≤ piF then [] else [.rng])

/-- `decode` (R90). -/
def decode (w : Sample) : Word := RNE (w.toInt * piC / 2 ^ 31)

/-- `normalize` (R100). -/
def normalize (x : Word) : Word × List Flag :=
  if isFinite x = false then (0x7FF8000000000000#64, [.nv])
  else if |val x| ≤ piF then (x, [])
  else (RNE (reduce (val x)), [])

end Sys2Proof.Exact
end

