-- ==== Sys2Proof/Safety.lean ====
section
/-! DEFINITION. What counts as a safe run, in the terms the statements use: the caller's contract, the fault record, and
the invariants of the machine. -/

namespace Sys2Proof.Machine

/-- No flag has been raised since the record was begun (spec/60_exceptions.md R154: "every claim assumes no fault was
recorded", decision D28). -/
def State.FaultFree (s : State) : Prop := s.faultRecorded = false

/-- Does an operand written now break the caller's contract? `ILL` with no function configured (R144), `NV` for a NaN or
an infinity (R142), `RNG` for an `ENCODE` operand out of range (R143). -/
def operandBreaksContract (op : BitVec 2) (v : Word) : Bool :=
  match decodeOp op v with
  | .none _ => true
  | .encode x => !isFinite x || !inRange x
  | .decode _ => false
  | .normalize x => !isFinite x

/-- Does a host step break the caller's contract (spec/60_exceptions.md R142 to R145)? Only an admitted write of `WDATA`
or an admitted read of `RDATA` with nothing pending can. -/
def breaksContract (s : State) : HostStep → Bool
  | .access a =>
    match a.wellFormed, regAt a.offset, a.action with
    | true, some .wdata, .write v => operandBreaksContract s.op v
    | true, some .rdata, .read => !s.rrdy
    | _, _, _ => false
  | .reset => false
  | .resetDuring _ => false

/-- Does the access touch one of the 32 bytes of the window (spec/20_memory.md R45, R47)? -/
def TouchesWindow (a : Access) : Prop := ∃ k : Nat, k < a.bytes ∧ 0 ≤ a.offset + k ∧ a.offset + k < 32

/-- The next host step is an admitted access `act` of the register `r`. -/
def NextIs (s : State) (r : Reg) (act : Action) : Prop :=
  ∃ a rest, s.pending = .access a :: rest ∧ a.wellFormed = true ∧ a.offset = regOffset r ∧ a.action = act

/-- The next host step is a reset, between accesses or instead of completing one (spec/70_reset_and_hazards.md R160). -/
def NextIsReset (s : State) : Prop :=
  ∃ h rest, s.pending = h :: rest ∧ (h = .reset ∨ ∃ a, h = .resetDuring a)

/-- INVARIANT: a flag that stands in `STATUS` is in the fault record (spec/60_exceptions.md R154, D28). -/
def State.FlagsRecorded (s : State) : Prop := ∀ f, s.flag f = true → s.faultRecorded = true

/-- A word an operation can leave in `RDATA` (spec/10_state.md R37): a sign-extended sample (spec/40_codec.md R96), a
binary64 angle of `[−PI_F, PI_F]` (R92, spec/41_normalizer.md R105), or the canonical quiet NaN (R102). -/
def IsResultWord (r : Word) : Prop :=
  (∃ w : Sample, r = w.signExtend 64) ∨ (Exact.isFinite r = true ∧ |Exact.val r| ≤ Exact.piF)
    ∨ r = 0x7FF8000000000000#64

/-- INVARIANT: `RDATA` holds a result word (the reset value 0 is one too). -/
def State.HoldsResultWord (s : State) : Prop := IsResultWord s.rdata

end Sys2Proof.Machine
end

