-- ==== Sys2Proof/Certificates/Slice0/Obligations.lean ====
section
/-! DEFINITION. The statements for the provers, from the spec's numbered rules. `Exact` names the spec's pseudocode over ℚ
(Sys2Proof/Exact.lean). -/

open Sys2Proof Sys2Proof.Machine

/-- R42: State.reset has CTRL.OP = NONE, RRDY and all four flags 0 and RDATA = 0; CTRL and STATUS read as zero, and so
does the write-only port WDATA, which has no content. -/
def Obligations.ResetStateReadsZero : Prop :=
  State.reset.op = 0b00#2 ∧ State.reset.rrdy = false ∧ State.reset.nv = false ∧ State.reset.rng = false ∧
  State.reset.ill = false ∧ State.reset.unr = false ∧ State.reset.rdata = 0x0000000000000000#64 ∧
  State.reset.ctrlWord = 0x0000000000000000#64 ∧ State.reset.statusWord = 0x0000000000000000#64 ∧
  State.reset.regWord .wdata = 0x0000000000000000#64

/-- 70_reset_and_hazards.md R160: From every state and for every access a, admitted or not, a reset step and a reset that
comes instead of completing a both leave CTRL.OP, RDATA, RRDY and the four flags zero: the access has no effect on the
unit. A read in progress returns at most one value, which is not stated. That this holds of every access, one that is
not admitted or lies outside the window included, is the model's choice (log entry 9): R160 does not ask which
accesses are meant. The fault record, the model's own, is left out. -/
def Obligations.ResetWinsOverAnAccess : Prop :=
  ∀ (s : State) (a : Access) (rest : List HostStep) (h : HostStep), (h = .reset ∨ h = .resetDuring a) →
    ∃ t, step { s with pending := h :: rest } = .next t ∧
      t = { s with op := 0b00#2, rrdy := false, nv := false, rng := false, ill := false, unr := false,
                   rdata := 0x0000000000000000#64, pending := rest, hostIndex := t.hostIndex,
                   responses := t.responses, faultRecorded := t.faultRecorded } ∧
      (t.responses = s.responses ∨ ∃ v, t.responses = { master := a.master, value := v } :: s.responses)

/-- R162: From the unit state a reset leaves (whatever the host side holds), a write of any v to WDATA leads to a next
state with ILL set and RDATA still zero, and a read of RDATA leads to a next state with UNR set, having returned zero. -/
def Obligations.SkippedConfigureIsCaughtAfterReset : Prop :=
  ∀ (s : State) (m : Nat) (v : Word) (rest : List HostStep),
    (∃ t, step { s.unitReset with pending := .access (regWrite m .wdata v) :: rest } = .next t ∧
      t.ill = true ∧ t.rdata = 0x0000000000000000#64) ∧
    (∃ t, step { s.unitReset with pending := .access (regRead m .rdata) :: rest } = .next t ∧
      t.unr = true ∧ t.responses = { master := m, value := 0x0000000000000000#64 } :: s.responses)

/-- 42_control.md R123, 30_encoding.md R60, R64, 20_memory.md R49: If the little-endian bytes of the word CTRL holds,
followed by those of v, decode to the command i, then a step whose next host step is a write of v to WDATA is exec of
i on the state with that host step taken off the list and the index one up. The byte form of a command is the model's
(log entry 3). -/
def Obligations.StepRunsTheDecodedCommand : Prop :=
  ∀ (s : State) (m : Nat) (v : Word) (rest : List HostStep) (i : Instr) (tail : List Byte),
    Sys2Proof.decode (leBytes 8 s.ctrlWord.toNat ++ leBytes 8 v.toNat ++ tail) = .ok (i, tail) →
    step { s with pending := .access (regWrite m .wdata v) :: rest } =
      exec i { s with pending := rest, hostIndex := s.hostIndex + 1 }

/-- 30_encoding.md R60, R61, 42_control.md R123: If decodeTableWord reads the command i from the bits w, then the next
step of s.withFetchWord nbits w is exec of i, on the state whose CTRL.OP is the op value of i, with the host list as
it was and the index one up. How a program comes to run is the model's (log entry 4). -/
def Obligations.PlacedCommandRunsNext : Prop :=
  ∀ (s : State) (nbits w : Nat) (i : Instr), decodeTableWord nbits w = some i →
    step (s.withFetchWord nbits w) = exec i { s with op := i.op, hostIndex := s.hostIndex + 1 }

/-- 00_scope.md R8, 10_state.md R31: A step from a state whose host list is empty answers that same state. That the model
takes a step at all there is the model's choice (log entry 4); that the unit changes only by accesses and resets is
the spec's (R8: the unit reacts to each access within that access). -/
def Obligations.NothingPendingNothingHappens : Prop :=
  ∀ s : State, step { s with pending := [] } = .next { s with pending := [] }

/-- R121: From every state, a write of v to CTRL leads to the state in which CTRL.OP is v[1:0]; RDATA, RRDY, all flags and
the fault record are unchanged, whatever is pending and whatever bits 63:2 of v are; only the host list and its index
move on. -/
def Obligations.WriteCtrlConfigures : Prop :=
  ∀ (s : State) (m : Nat) (v : Word) (rest : List HostStep),
    step { s with pending := .access (regWrite m .ctrl v) :: rest } =
      .next { s with op := v.extractLsb' 0 2, pending := rest, hostIndex := s.hostIndex + 1 }

/-- R122: From every state, a read of CTRL returns to the master that issued it a word whose value is that of CTRL.OP, at
most 3, and changes nothing of the unit. -/
def Obligations.ReadCtrlReturnsOp : Prop :=
  ∀ (s : State) (m : Nat) (rest : List HostStep),
    ∃ w : Word, step { s with pending := .access (regRead m .ctrl) :: rest } =
        .next { s with pending := rest, hostIndex := s.hostIndex + 1,
                       responses := { master := m, value := w } :: s.responses } ∧
      w.toNat = s.op.toNat ∧ w.toNat ≤ 3

/-- R123: From every state with CTRL.OP = 00, 01, 10, 11, a write of v to WDATA leads to the next state in which (00) ILL
is set; (01) RDATA is the sign-extended sample of the exact-rational encode(v), RRDY is 1 and exactly its flags are
raised; (10) RDATA is decode(v[31:0]) and RRDY is 1; (11) RDATA is the word of normalize(v), RRDY is 1 and exactly its
flags are raised. CTRL.OP and everything else of the unit are unchanged, also where RRDY was already 1. The fault
record, the model's own, is left out. -/
def Obligations.WriteWdataPerformsTheSelectedOperation : Prop :=
  ∀ (s : State) (m : Nat) (v : Word) (rest : List HostStep),
    (∃ t, step { s with op := 0b00#2, pending := .access (regWrite m .wdata v) :: rest } = .next t ∧
      t = { s with op := 0b00#2, ill := true, faultRecorded := t.faultRecorded,
                   pending := rest, hostIndex := s.hostIndex + 1 }) ∧
    (∃ t, step { s with op := 0b01#2, pending := .access (regWrite m .wdata v) :: rest } = .next t ∧
      t = { s with op := 0b01#2, rdata := (Exact.encode v).1.signExtend 64, rrdy := true,
                   nv := s.nv || decide (Flag.nv ∈ (Exact.encode v).2),
                   rng := s.rng || decide (Flag.rng ∈ (Exact.encode v).2), faultRecorded := t.faultRecorded,
                   pending := rest, hostIndex := s.hostIndex + 1 }) ∧
    (∃ t, step { s with op := 0b10#2, pending := .access (regWrite m .wdata v) :: rest } = .next t ∧
      t = { s with op := 0b10#2, rdata := Exact.decode (v.extractLsb' 0 32), rrdy := true,
                   faultRecorded := t.faultRecorded, pending := rest, hostIndex := s.hostIndex + 1 }) ∧
    (∃ t, step { s with op := 0b11#2, pending := .access (regWrite m .wdata v) :: rest } = .next t ∧
      t = { s with op := 0b11#2, rdata := (Exact.normalize v).1, rrdy := true,
                   nv := s.nv || decide (Flag.nv ∈ (Exact.normalize v).2), faultRecorded := t.faultRecorded,
                   pending := rest, hostIndex := s.hostIndex + 1 })

/-- R124: From every state, a read of RDATA returns the word RDATA holds to the master that issued it; RDATA is unchanged,
RRDY becomes 0, UNR is raised exactly if RRDY was 0, and nothing else of the unit changes. So a second read returns
the same word and raises UNR. The fault record, the model's own, is left out. -/
def Obligations.ReadRdataReturnsTheResult : Prop :=
  ∀ (s : State) (m : Nat) (rest : List HostStep),
    ∃ t, step { s with pending := .access (regRead m .rdata) :: rest } = .next t ∧
      t = { s with rrdy := false, unr := s.unr || !s.rrdy, faultRecorded := t.faultRecorded, pending := rest,
                   hostIndex := s.hostIndex + 1, responses := { master := m, value := s.rdata } :: s.responses }

/-- R125: From every state, a read of STATUS returns to the master that issued it a word with RRDY in bit 0, NV in bit 1,
RNG in bit 2, ILL in bit 3, UNR in bit 4 and every higher bit zero, and changes nothing of the unit. -/
def Obligations.ReadStatusReturnsTheFlags : Prop :=
  ∀ (s : State) (m : Nat) (rest : List HostStep),
    ∃ w : Word, step { s with pending := .access (regRead m .status) :: rest } =
        .next { s with pending := rest, hostIndex := s.hostIndex + 1,
                       responses := { master := m, value := w } :: s.responses } ∧
      w.getLsbD 0 = s.rrdy ∧ w.getLsbD 1 = s.nv ∧ w.getLsbD 2 = s.rng ∧ w.getLsbD 3 = s.ill ∧
      w.getLsbD 4 = s.unr ∧ ∀ i, 5 ≤ i → w.getLsbD i = false

/-- R126: From every state, a write of v to STATUS clears NV, RNG, ILL, UNR where bit 1, 2, 3, 4 of v is 1 and leaves each
as it is where the bit is 0; RRDY, RDATA, CTRL and everything else of the unit are unchanged, whatever bits 0 and 63:5
of v are. -/
def Obligations.WriteStatusClearsOnes : Prop :=
  ∀ (s : State) (m : Nat) (v : Word) (rest : List HostStep),
    step { s with pending := .access (regWrite m .status v) :: rest } =
      .next { s with nv := if v.getLsbD 1 then false else s.nv, rng := if v.getLsbD 2 then false else s.rng,
                     ill := if v.getLsbD 3 then false else s.ill, unr := if v.getLsbD 4 then false else s.unr,
                     pending := rest, hostIndex := s.hostIndex + 1 }

/-- R127: From every state, a read of WDATA returns zero to the master that issued it and changes nothing of the unit. -/
def Obligations.ReadWdataReturnsZero : Prop :=
  ∀ (s : State) (m : Nat) (rest : List HostStep),
    step { s with pending := .access (regRead m .wdata) :: rest } =
      .next { s with pending := rest, hostIndex := s.hostIndex + 1,
                     responses := { master := m, value := 0x0000000000000000#64 } :: s.responses }

/-- R128: From every state, a write of any v to RDATA changes nothing of the unit and raises no flag. -/
def Obligations.WriteRdataIsIgnored : Prop :=
  ∀ (s : State) (m : Nat) (v : Word) (rest : List HostStep),
    step { s with pending := .access (regWrite m .rdata v) :: rest } =
      .next { s with pending := rest, hostIndex := s.hostIndex + 1 }

/-- R47: For every state and access a next in order: if a touches a byte of the window and is not a single 8-byte read or
write at offset 0x00, 0x08, 0x10 or 0x18, the step refuses it by name (it is not split, merged or completed); if it is
one, the step answers a next state. -/
def Obligations.NotAdmittedAccessIsRefused : Prop :=
  ∀ (s : State) (a : Access) (rest : List HostStep), TouchesWindow a →
    (¬ (a.form = .single ∧ a.bytes = 8 ∧ (a.offset = 0x00 ∨ a.offset = 0x08 ∨ a.offset = 0x10 ∨ a.offset = 0x18)) →
      ∃ why, step { s with pending := .access a :: rest } = .refused (.notAdmitted why)) ∧
    (a.form = .single ∧ a.bytes = 8 ∧ (a.offset = 0x00 ∨ a.offset = 0x08 ∨ a.offset = 0x10 ∨ a.offset = 0x18) →
      ∃ t, step { s with pending := .access a :: rest } = .next t)

/-- 20_memory.md R46, R47, R50, 60_exceptions.md R140, R146: Whenever a step does not answer a next state, it is a refusal
by the name notAdmitted, and the host step it stopped at is an access that touches the window and is not well formed:
no operand, no flag, no reset and no admitted access ever stops the machine. That it goes on with an empty host list
is the model's choice (log entry 4), after an access outside the window DEDUCED (R46, log entry 7), after a reset
during an access that is not admitted the model's choice (log entry 9). -/
def Obligations.StepStopsOnlyAtNotAdmittedAccess : Prop :=
  ∀ s : State, (∃ t, step s = .next t) ∨
    ∃ a rest why, s.pending = .access a :: rest ∧ TouchesWindow a ∧ a.wellFormed = false ∧
      step s = .refused (.notAdmitted why)

/-- 20_memory.md R46, 20_memory.md R45: If the next access touches none of the 32 bytes of the window, the step only takes
it off the host list. R46 says only that it is no access to QANC: that the machine goes on unchanged and returns
nothing is DEDUCED (log entry 7). -/
def Obligations.AccessOutsideTheWindowLeavesTheUnit : Prop :=
  ∀ (s : State) (a : Access) (rest : List HostStep), ¬ TouchesWindow a →
    step { s with pending := .access a :: rest } =
      .next { s with pending := rest, hostIndex := s.hostIndex + 1 }

/-- 20_memory.md R45, 00_scope.md R22: For every master m, the 8-byte bus read MemRead(BASE + off) and write MemWrite(BASE
+ off, v) are RegRead and RegWrite of CTRL, STATUS, WDATA, RDATA for off = 0x00, 0x08, 0x10, 0x18; the address of each
such access is BASE + off; BASE is a multiple of 32. -/
def Obligations.BusAddressReachesRegister : Prop :=
  Config.base % 32 = 0 ∧
  ∀ (m : Nat) (r : Reg) (off : Nat),
    (r, off) ∈ [(Reg.ctrl, 0x00), (Reg.status, 0x08), (Reg.wdata, 0x10), (Reg.rdata, 0x18)] →
    memRead m (Config.base + off) 8 = regRead m r ∧
    (∀ v, memWrite m (Config.base + off) 8 v = regWrite m r v) ∧
    busAddress (regRead m r) = (Config.base : Int) + off

/-- R49: In every state, the byte at offset off + k of the window, k = 0 to 7, is bits 8k+7:8k of the register at off,
where CTRL reads zext(OP), WDATA reads zero and STATUS and RDATA read as their words; there is no byte beyond the 32.
An access of fewer than 8 bytes that touches the window is refused, so no admitted access observes the order. -/
def Obligations.WindowBytesAreLittleEndian : Prop :=
  (∀ (s : State) (r : Reg) (off k : Nat),
    (r, off) ∈ [(Reg.ctrl, 0x00), (Reg.status, 0x08), (Reg.wdata, 0x10), (Reg.rdata, 0x18)] → k < 8 →
    ∃ b : Byte, s.windowByte (off + k) = some b ∧ ∀ i, i < 8 → b.getLsbD i = (s.regWord r).getLsbD (8 * k + i)) ∧
  (∀ (s : State) (k : Nat), 32 ≤ k → s.windowByte k = none) ∧
  (∀ (s : State) (a : Access) (rest : List HostStep), TouchesWindow a → a.bytes < 8 →
    ∃ why, step { s with pending := .access a :: rest } = .refused (.notAdmitted why))

/-- R120: For every operand and state, exec of NONE answers the next state in which ILL is set and RDATA, RRDY, CTRL, the
other flags, the host list, the index and the responses are unchanged. The fault record, the model's own, is left out. -/
def Obligations.NoneRaisesIllAndNothingElse : Prop :=
  ∀ (v : Word) (s : State), ∃ t, exec (.none v) s = .next t ∧
    t = { s with ill := true, faultRecorded := t.faultRecorded }

/-- R82: For every operand word and state, exec of ENCODE answers the next state in which RDATA is the sign-extended
sample of encode(x) computed over the rationals (reduce outside |val| <= PI_F, t = y * 2^31 / PI_C, nearest even,
saturation), RRDY is 1, NV and RNG are raised exactly where encode(x) says, and everything else is unchanged. The
fault record, the model's own, is left out. -/
def Obligations.EncodeDeliversTheExactSample : Prop :=
  ∀ (x : Word) (s : State), ∃ t, exec (.encode x) s = .next t ∧
    t = { s with rdata := (Exact.encode x).1.signExtend 64, rrdy := true,
                 nv := s.nv || decide (Flag.nv ∈ (Exact.encode x).2),
                 rng := s.rng || decide (Flag.rng ∈ (Exact.encode x).2), faultRecorded := t.faultRecorded }

/-- R90: For every operand word and state, exec of DECODE answers the next state in which RDATA is the exact rational s *
PI_C / 2^31 of the signed sample s in bits 31:0, rounded once to binary64, RRDY is 1, and everything else (every flag
and the fault record included) is unchanged, whatever bits 63:32 are. -/
def Obligations.DecodeDeliversTheExactAngle : Prop :=
  ∀ (v : Word) (s : State), exec (.decode v) s =
    .next { s with rdata := Exact.RNE ((v.extractLsb' 0 32).toInt * Exact.piC / 2 ^ 31), rrdy := true }

/-- R100: For every operand word and state, exec of NORMALIZE answers the next state in which RDATA is QNAN for a non-
finite operand, the operand itself for |val| <= PI_F, and otherwise the exact reduction modulo TWO_PI_C rounded once;
RRDY is 1; NV is raised exactly for a non-finite operand; everything else is unchanged. The fault record, the model's
own, is left out. -/
def Obligations.NormalizeDeliversTheExactAngle : Prop :=
  ∀ (x : Word) (s : State), ∃ t, exec (.normalize x) s = .next t ∧
    t = { s with rdata := (Exact.normalize x).1, rrdy := true,
                 nv := s.nv || decide (Flag.nv ∈ (Exact.normalize x).2), faultRecorded := t.faultRecorded }

/-- R83: For every operand and state, exec of ENCODE answers a next state with RRDY set, NV set exactly if it was set or
the operand is not finite, RNG set exactly if it was set or the operand is finite with |val| > PI_F, ILL and UNR
unchanged; from a state with both clear, not both are set after; and the flags before do not alter the result word. -/
def Obligations.EncodeFlagsExactly : Prop :=
  ∀ (x : Word) (s : State), ∃ t, exec (.encode x) s = .next t ∧ t.rrdy = true ∧
    (t.nv = true ↔ s.nv = true ∨ Exact.isFinite x = false) ∧
    (t.rng = true ↔ s.rng = true ∨ (Exact.isFinite x = true ∧ Exact.piF < |Exact.val x|)) ∧
    t.ill = s.ill ∧ t.unr = s.unr ∧
    (s.nv = false → s.rng = false → ¬ (t.nv = true ∧ t.rng = true)) ∧
    ∀ nv rng ill unr : Bool, ∃ u,
      exec (.encode x) { s with nv := nv, rng := rng, ill := ill, unr := unr } = .next u ∧ u.rdata = t.rdata

/-- R84: For every x with bits 62:52 all ones, either sign, and every state, exec of ENCODE answers a next state with
RDATA = 0 and NV set. -/
def Obligations.EncodeNonFiniteDeliversZero : Prop :=
  ∀ (x : Word) (s : State), x.extractLsb' 52 11 = 0x7FF#11 →
    ∃ t, exec (.encode x) s = .next t ∧ t.rdata = 0x0000000000000000#64 ∧ t.nv = true

/-- R91: For every operand and state, exec of DECODE answers a next state with RRDY set and NV, RNG, ILL and UNR as they
were. -/
def Obligations.DecodeRaisesNoFlag : Prop :=
  ∀ (v : Word) (s : State), ∃ t, exec (.decode v) s = .next t ∧ t.rrdy = true ∧ ∀ f, t.flag f = s.flag f

/-- R101: For every operand and state, exec of NORMALIZE answers a next state with RRDY set, NV set exactly if it was set
or the operand is not finite, and RNG, ILL and UNR unchanged. -/
def Obligations.NormalizeFlagsExactly : Prop :=
  ∀ (x : Word) (s : State), ∃ t, exec (.normalize x) s = .next t ∧ t.rrdy = true ∧
    (t.nv = true ↔ s.nv = true ∨ Exact.isFinite x = false) ∧ t.rng = s.rng ∧ t.ill = s.ill ∧ t.unr = s.unr

/-- R102: For every x with bits 62:52 all ones, whatever its sign and payload, and every state, exec of NORMALIZE answers
a next state with RDATA = 0x7FF8000000000000 and NV set. -/
def Obligations.NormalizeNonFiniteDeliversQuietNaN : Prop :=
  ∀ (x : Word) (s : State), x.extractLsb' 52 11 = 0x7FF#11 →
    ∃ t, exec (.normalize x) s = .next t ∧ t.rdata = 0x7FF8000000000000#64 ∧ t.nv = true

/-- R103: For every finite x with |val(x)| <= PI_F and every state, exec of NORMALIZE answers a next state with RDATA = x
(so -0, subnormals and both words of PI_F are kept); and for such x with nonzero value, RNE(reduce(val(x))) is x as
well. -/
def Obligations.NormalizeKeepsInRangeOperands : Prop :=
  ∀ (x : Word), Exact.isFinite x = true → |Exact.val x| ≤ Exact.piF →
    (∀ s : State, ∃ t, exec (.normalize x) s = .next t ∧ t.rdata = x) ∧
    (Exact.val x ≠ 0 → Exact.RNE (Exact.reduce (Exact.val x)) = x)

/-- R80: For every command i there are an optional result word and a list of flags, fixed before any state is given, such
that in EVERY state exec of i answers the next state that differs from it only in RDATA and RRDY (where there is a
result, the result word and 1) and in the flags of the list, set; every other field, the host's list, index and
responses included, is as before. -/
def Obligations.ResultAndFlagsDependOnCommandAlone : Prop :=
  ∀ i : Instr, ∃ (r : Option Word) (fs : List Flag), ∀ s : State, ∃ t, exec i s = .next t ∧
    t = { s with rdata := r.getD s.rdata, rrdy := s.rrdy || r.isSome,
                 nv := s.nv || decide (Flag.nv ∈ fs), rng := s.rng || decide (Flag.rng ∈ fs),
                 ill := s.ill || decide (Flag.ill ∈ fs), unr := s.unr || decide (Flag.unr ∈ fs),
                 faultRecorded := t.faultRecorded }

/-- 60_exceptions.md R149, 70_reset_and_hazards.md R160: If a step answers a next state in which two flags stand that did
not stand before, they are the same flag; a newly raised ILL comes from a WDATA write with OP = NONE, a newly raised
NV or RNG from a WDATA write with OP not NONE, a newly raised UNR from an RDATA read; and after a reset, also one that
coincides with an access, the unit is in the reset state: CTRL.OP, RDATA, RRDY and all four flags are zero. That a
reset wins also over an access that is not admitted or lies outside the window is the model's choice (log entry 9). -/
def Obligations.OneAccessRaisesAtMostOneFlag : Prop :=
  ∀ (s t : State), step s = .next t →
    (∀ f g, s.flag f = false → t.flag f = true → s.flag g = false → t.flag g = true → f = g) ∧
    (s.ill = false → t.ill = true → s.op = 0b00#2 ∧ ∃ v, NextIs s .wdata (.write v)) ∧
    (s.nv = false → t.nv = true → s.op ≠ 0b00#2 ∧ ∃ v, NextIs s .wdata (.write v)) ∧
    (s.rng = false → t.rng = true → s.op ≠ 0b00#2 ∧ ∃ v, NextIs s .wdata (.write v)) ∧
    (s.unr = false → t.unr = true → NextIs s .rdata .read) ∧
    (NextIsReset s → t.op = 0b00#2 ∧ t.rdata = 0x0000000000000000#64 ∧ t.rrdy = false ∧ ∀ f, t.flag f = false)

/-- 10_state.md R38, 42_control.md R126, 70_reset_and_hazards.md R160: If a flag stands and a step answers a state in
which it does not, then that step was a write of STATUS with a 1 in the flag's bit (NV 1, RNG 2, ILL 3, UNR 4), or a
reset. The statement covers every step, so also one with nothing pending, one at an access outside the window and a
reset during an access that is not admitted (log entries 4, 7 and 9, the model's). -/
def Obligations.FlagsAreStickyUntilClearedByOne : Prop :=
  ∀ (s t : State) (f : Flag), step s = .next t → s.flag f = true → t.flag f = false →
    NextIsReset s ∨ ∃ v : Word, NextIs s .status (.write v) ∧
      v.getLsbD (match f with | .nv => 1 | .rng => 2 | .ill => 3 | .unr => 4) = true

/-- 10_state.md R35, 42_control.md R121, 70_reset_and_hazards.md R160: If a step answers a state with another CTRL.OP,
then it was a reset, leaving 00, or an admitted write of CTRL, leaving bits 1:0 of the word written; no operation
changes it. The statement covers every step, so also one with nothing pending, one at an access outside the window and
a reset during an access that is not admitted (log entries 4, 7 and 9, the model's). -/
def Obligations.OnlyCtrlWritesAndResetChangeOp : Prop :=
  ∀ (s t : State), step s = .next t → t.op ≠ s.op →
    (NextIsReset s ∧ t.op = 0b00#2) ∨ ∃ v : Word, NextIs s .ctrl (.write v) ∧ t.op = v.extractLsb' 0 2

/-- 10_state.md R37, R38, 42_control.md R123, R124, 70_reset_and_hazards.md R160: If a step answers a state with another
RDATA, it was a reset or a WDATA write with OP not NONE. If RRDY goes from 0 to 1, it was a WDATA write with OP not
NONE; if from 1 to 0, it was a read of RDATA or a reset. The statement covers every step, so also one with nothing
pending, one at an access outside the window and a reset during an access that is not admitted (log entries 4, 7 and
9, the model's). -/
def Obligations.OnlyOperationsAndResetChangeTheResult : Prop :=
  ∀ (s t : State), step s = .next t →
    (t.rdata ≠ s.rdata → NextIsReset s ∨ (s.op ≠ 0b00#2 ∧ ∃ v, NextIs s .wdata (.write v))) ∧
    (s.rrdy = false → t.rrdy = true → s.op ≠ 0b00#2 ∧ ∃ v, NextIs s .wdata (.write v)) ∧
    (s.rrdy = true → t.rrdy = false → NextIsReset s ∨ NextIs s .rdata .read)

/-- 20_memory.md R54, 20_memory.md R52: From every state with CTRL.OP = 01, 10 or 11: after a write of v to WDATA, any
number of admitted accesses (none included) of which none is a WDATA write (configures and other reads of RDATA are
allowed), and a read of RDATA by master m, all these steps complete, the value last returned is the result of v under
the OP in force at its write, and it is returned to m. This is R54(a). -/
def Obligations.ReadAfterWriteReturnsItsResult : Prop :=
  ∀ (s : State) (m m' k : Nat) (v : Word) (between : List Access) (rest : List HostStep),
    (∀ a ∈ between, a.wellFormed = true ∧ ∀ u, ¬ (a.offset = 0x10 ∧ a.action = .write u)) →
    ∀ (op : BitVec 2) (r : Word),
      (op = 0b01#2 ∧ r = (Exact.encode v).1.signExtend 64) ∨ (op = 0b10#2 ∧ r = Exact.decode (v.extractLsb' 0 32)) ∨
        (op = 0b11#2 ∧ r = (Exact.normalize v).1) →
      ∃ t, Sys2Proof.core.run (between.length + 2)
          { s with op := op, hostIndex := k,
                   pending := .access (regWrite m' .wdata v) ::
                     (between.map HostStep.access ++ .access (regRead m .rdata) :: rest) } = .next t ∧
        t.responses.head? = some { master := m, value := r } ∧ t.pending = rest ∧
        t.hostIndex = k + between.length + 2

/-- 00_scope.md R8, 60_exceptions.md R150, R157: Let two states differ only in the master of the next access. Then a step
refuses in both, for the same reason, or answers in both states equal in every field but the responses, and there the
value newly returned, if any, is the same. The access may also lie outside the window, where the step is the model's
(log entry 7). -/
def Obligations.MastersAreNotToldApart : Prop :=
  ∀ (s : State) (a : Access) (m : Nat) (rest : List HostStep),
    (∃ r, step { s with pending := .access a :: rest } = .refused r ∧
      step { s with pending := .access { a with master := m } :: rest } = .refused r) ∨
    ∃ t u, step { s with pending := .access a :: rest } = .next t ∧
      step { s with pending := .access { a with master := m } :: rest } = .next u ∧
      u = { t with responses := u.responses } ∧ u.responses.map Response.value = t.responses.map Response.value

/-- 60_exceptions.md R154, 92_eei_decisions.md D28: From every state in which every flag that stands in STATUS is also in
the fault record, each step that answers a next state leads to such a state; and no step ever clears the fault record.
The record is the model's own (log entry 5), kept as R154 and D28 recommend. The statement covers every step, so also
one with nothing pending, one at an access outside the window and a reset during an access that is not admitted (log
entries 4, 7 and 9, the model's). -/
def Obligations.RaisedFlagsAreRecordedForGood : Prop :=
  ∀ (s t : State), step s = .next t →
    (s.FlagsRecorded → t.FlagsRecorded) ∧ (s.faultRecorded = true → t.faultRecorded = true)

/-- 10_state.md R37, 40_codec.md R92, R96, 41_normalizer.md R102, R105: From every state in which RDATA holds a sign-
extended 32-bit sample, a finite binary64 word with |val| <= PI_F or 0x7FF8000000000000, each step that answers a next
state leads to such a state, whatever the operand and whatever the host does. The statement covers every step, so also
one with nothing pending, one at an access outside the window and a reset during an access that is not admitted (log
entries 4, 7 and 9, the model's). -/
def Obligations.ResultRegisterHoldsAResultWord : Prop :=
  ∀ (s t : State), s.HoldsResultWord → step s = .next t → t.HoldsResultWord

/-- 70_reset_and_hazards.md R160, 60_exceptions.md R154: State.reset has every standing flag recorded (none stands), RDATA
is a result word (the sign-extended sample 0), and no fault is recorded. The start value of the fault record is the
model's (log entry 5). -/
def Obligations.ResetMeetsTheInvariants : Prop :=
  State.reset.FlagsRecorded ∧ State.reset.HoldsResultWord ∧ State.reset.FaultFree

/-- 60_exceptions.md R142, R143, R144, R145, R154, 92_eei_decisions.md D28: For every step that answers a next state: a
fault is recorded after it exactly if one was before or the host step broke the contract: an operand written with OP =
NONE, a NaN or infinity to ENCODE or NORMALIZE, a finite |val| > PI_F to ENCODE, or a read of RDATA with none pending.
The record is the model's own (log entry 5). The statement covers every step, so also one with nothing pending, one at
an access outside the window and a reset during an access that is not admitted (log entries 4, 7 and 9, the model's). -/
def Obligations.FaultRecordedExactlyByBrokenContracts : Prop :=
  ∀ (s t : State), step s = .next t →
    (t.faultRecorded = true ↔ s.faultRecorded = true ∨
      (s.op = 0b00#2 ∧ ∃ v, NextIs s .wdata (.write v)) ∨
      (s.op = 0b01#2 ∧ ∃ v, NextIs s .wdata (.write v) ∧ (Exact.isFinite v = false ∨ Exact.piF < |Exact.val v|)) ∨
      (s.op = 0b11#2 ∧ ∃ v, NextIs s .wdata (.write v) ∧ Exact.isFinite v = false) ∨
      (s.rrdy = false ∧ NextIs s .rdata .read))

/-- R20: For every integer num and positive den, the machine's rne num den is the word RNE(num / den) of the spec,
overflow and subnormal branches included. -/
def Obligations.RoundingMatchesRoundTiesToEven : Prop :=
  ∀ (num : Int) (den : Nat), 0 < den → rne num den = Exact.RNE ((num : ℚ) / den)

/-- R81: For every rational v, reduce(v) lies in (-PI_C, PI_C] and is v minus n periods for n = -floor((PI_C - v) /
TWO_PI_C); it is v exactly when -PI_C < v <= PI_C; reduce(-v) = -reduce(v) unless reduce(v) = PI_C; PI_C, -PI_C, 0, 3
PI_C go to PI_C, PI_C, 0, PI_C. On a whole number of quanta 2^-1074 the machine's reduce gives exactly that rational,
in quanta. -/
def Obligations.ReductionIsExact : Prop :=
  (∀ v : ℚ, -Exact.piC < Exact.reduce v ∧ Exact.reduce v ≤ Exact.piC ∧
    Exact.reduce v = v - (-⌊(Exact.piC - v) / Exact.twoPiC⌋ : ℤ) * Exact.twoPiC ∧
    (Exact.reduce v = v ↔ -Exact.piC < v ∧ v ≤ Exact.piC) ∧
    (Exact.reduce v ≠ Exact.piC → Exact.reduce (-v) = -Exact.reduce v)) ∧
  Exact.reduce Exact.piC = Exact.piC ∧ Exact.reduce (-Exact.piC) = Exact.piC ∧ Exact.reduce 0 = 0 ∧
  Exact.reduce (3 * Exact.piC) = Exact.piC ∧
  ∀ v : Int, ((Machine.reduce v : Int) : ℚ) / 2 ^ 1074 = Exact.reduce ((v : ℚ) / 2 ^ 1074)

/-- 40_codec.md R86, R96: For every finite x, the integer k of encode lies between -2^31 and 2^31; k = 2^31 exactly when
the encoded angle is at least (2^31 - 1/2) * UNIT, and k = -2^31 exactly when it is at most -(2^31 - 1/2) * UNIT; the
sample ENCODE delivers is 2^31 - 1 if k = 2^31 and k otherwise, so nothing wraps. -/
def Obligations.EncodeSaturatesOnlyAtTheTop : Prop :=
  ∀ x : Word, Exact.isFinite x = true →
    -2 ^ 31 ≤ Exact.encodedInteger x ∧ Exact.encodedInteger x ≤ 2 ^ 31 ∧
    (Exact.encodedInteger x = 2 ^ 31 ↔ (2 ^ 31 - 1 / 2) * Exact.unit ≤ Exact.encodedAngle x) ∧
    (Exact.encodedInteger x = -2 ^ 31 ↔ Exact.encodedAngle x ≤ -(2 ^ 31 - 1 / 2) * Exact.unit) ∧
    ∀ s : State, ∃ t, exec (.encode x) s = .next t ∧
      t.rdata.toInt = if Exact.encodedInteger x = 2 ^ 31 then 2 ^ 31 - 1 else Exact.encodedInteger x

/-- 40_codec.md R87, 40_codec.md R82: For every finite x, in and out of the precondition, let y be the angle the machine
converts, in quanta: val(x) if |val(x)| <= PI_F and reduce(val(x)) otherwise. Twice the remainder of y * 2^31 by PI_C
is not PI_C, so the half branch of rint_even is not taken; from every state exec of ENCODE answers a next state whose
RDATA is the sign-extended, saturated floor of y * 2^31 / PI_C, or one more where the remainder is above half, with no
tie rule; and over the rationals the scaled angle is not k + 1/2 for any integer k. -/
def Obligations.EncodeNeverTies : Prop :=
  ∀ (x : Word) (y : Int), Exact.isFinite x = true →
    y = (if |Exact.val x| ≤ Exact.piF then Machine.val x else Machine.reduce (Machine.val x)) →
    2 * ((y * 2147483648) % (Machine.piC : Int)) ≠ (Machine.piC : Int) ∧
    (∀ s : State, ∃ t, exec (.encode x) s = .next t ∧
      t.rdata = (BitVec.ofInt 32 (Machine.sat32
        (if 2 * ((y * 2147483648) % (Machine.piC : Int)) < (Machine.piC : Int)
          then (y * 2147483648) / (Machine.piC : Int)
          else (y * 2147483648) / (Machine.piC : Int) + 1))).signExtend 64) ∧
    ∀ k : ℤ, Exact.encodedAngle x * 2 ^ 31 / Exact.piC ≠ (k : ℚ) + 1 / 2

/-- 40_codec.md R87: For every finite x with |val(x)| <= PI_F, where -x is x with bit 63 inverted: if the sample of x is
not INT32_MAX by saturation and not INT32_MIN, the sample of -x is minus the sample of x; where k is 2^31 or -2^31 the
positive side gives 2147483647 and the negative side -2147483648. Both operands complete. -/
def Obligations.EncodeIsOddInsideThePrecondition : Prop :=
  ∀ (x : Word) (s : State), Exact.isFinite x = true → |Exact.val x| ≤ Exact.piF →
    ∃ t u, exec (.encode x) s = .next t ∧ exec (.encode (x ^^^ 0x8000000000000000#64)) s = .next u ∧
      (if Exact.encodedInteger x = 2 ^ 31 then t.rdata.toInt = 2147483647 ∧ u.rdata.toInt = -2147483648
       else if Exact.encodedInteger x = -2 ^ 31 then t.rdata.toInt = -2147483648 ∧ u.rdata.toInt = 2147483647
       else u.rdata.toInt = -t.rdata.toInt)

/-- 40_codec.md R87: For finite x and x2 with |val| <= PI_F and val(x) <= val(x2), both ENCODEs complete and the sample of
x is at most the sample of x2. -/
def Obligations.EncodeIsMonotone : Prop :=
  ∀ (x x2 : Word) (s : State), Exact.isFinite x = true → Exact.isFinite x2 = true →
    |Exact.val x| ≤ Exact.piF → |Exact.val x2| ≤ Exact.piF → Exact.val x ≤ Exact.val x2 →
    ∃ t u, exec (.encode x) s = .next t ∧ exec (.encode x2) s = .next u ∧ t.rdata.toInt ≤ u.rdata.toInt

/-- 40_codec.md R92: For every sample w: decode(w) is +0 if w is 0 and otherwise a normal binary64 word; |val(decode(w))|
<= PI_F, so it meets the precondition of ENCODE; for w other than 0 and INT32_MIN, decode(-w) is decode(w) with bit 63
inverted; and a smaller signed sample decodes to a strictly smaller value. -/
def Obligations.DecodeRangeAndShape : Prop :=
  (∀ w : Sample, (w = 0#32 → decodeSample w = 0x0000000000000000#64) ∧
    (w ≠ 0#32 → 1 ≤ exponentField (decodeSample w) ∧ exponentField (decodeSample w) ≤ 2046) ∧
    |Exact.val (decodeSample w)| ≤ Exact.piF ∧
    (w ≠ 0#32 → w ≠ 0x80000000#32 → decodeSample (-w) = decodeSample w ^^^ 0x8000000000000000#64)) ∧
  ∀ w w2 : Sample, w.toInt < w2.toInt → Exact.val (decodeSample w) < Exact.val (decodeSample w2)

/-- R94: For every operand word v and state, DECODE of v completes, ENCODE of the angle it leaves in RDATA completes after
it, RDATA is then the sign-extended sample v[31:0] (so it is recovered within 1 unit, and in fact exactly), and no
flag is raised by either. -/
def Obligations.EncodeOfDecodeIsTheSample : Prop :=
  ∀ (v : Word) (s : State), ∃ t u, exec (.decode v) s = .next t ∧ exec (.encode t.rdata) t = .next u ∧
    u.rdata = (v.extractLsb' 0 32).signExtend 64 ∧
    |u.rdata.toInt - (v.extractLsb' 0 32).toInt| ≤ 1 ∧ ∀ f, u.flag f = s.flag f

/-- R95: For every finite x with |val(x)| <= PI_F and every state, ENCODE and then DECODE of the word it delivers
complete, and the value in RDATA differs from val(x) by at most UNIT/2 + 2^-52 if k is not 2^31, and at most UNIT +
2^-52 if it is. -/
def Obligations.DecodeOfEncodeIsWithinHalfAUnit : Prop :=
  ∀ (x : Word) (s : State), Exact.isFinite x = true → |Exact.val x| ≤ Exact.piF →
    ∃ t u, exec (.encode x) s = .next t ∧ exec (.decode t.rdata) t = .next u ∧
      |Exact.val u.rdata - Exact.val x| ≤
        (if Exact.encodedInteger x = 2 ^ 31 then Exact.unit else Exact.unit / 2) + 1 / 2 ^ 52

/-- 41_normalizer.md R104: For every finite x with |val(x)| > PI_F: |val(x)| > PI_C as well, the reduced angle has
magnitude between 2^-61 and PI_C and is not PI_C itself, and the result is a normal binary64 word, never a zero, a
subnormal, an infinity or a NaN. For every finite x, the result for x with bit 63 inverted is the result for x with
bit 63 inverted. -/
def Obligations.NormalizeOutOfRangeIsNormalAndOdd : Prop :=
  (∀ x : Word, Exact.isFinite x = true → Exact.piF < |Exact.val x| →
    Exact.piC < |Exact.val x| ∧ 1 / 2 ^ 61 ≤ |Exact.reduce (Exact.val x)| ∧
    -Exact.piC < Exact.reduce (Exact.val x) ∧ Exact.reduce (Exact.val x) < Exact.piC ∧
    ∀ s : State, ∃ t, exec (.normalize x) s = .next t ∧
      1 ≤ exponentField t.rdata ∧ exponentField t.rdata ≤ 2046) ∧
  ∀ (x : Word) (s : State), Exact.isFinite x = true →
    ∃ t u, exec (.normalize x) s = .next t ∧ exec (.normalize (x ^^^ 0x8000000000000000#64)) s = .next u ∧
      u.rdata = t.rdata ^^^ 0x8000000000000000#64

/-- R105: For every finite x and every state, exec of NORMALIZE answers a next state whose RDATA is a finite word with
|val| <= PI_F; and from every state NORMALIZE of 0xC00921FB54442D19 leaves 0x400921FB54442D18 and of
0x400921FB54442D19 leaves 0xC00921FB54442D18 in RDATA. Before rounding the exact value is in (-PI_C, PI_C]. -/
def Obligations.NormalizeStaysInRange : Prop :=
  (∀ (x : Word) (s : State), Exact.isFinite x = true →
    -Exact.piC < Exact.reduce (Exact.val x) ∧ Exact.reduce (Exact.val x) ≤ Exact.piC ∧
    ∃ t, exec (.normalize x) s = .next t ∧ Exact.isFinite t.rdata = true ∧ |Exact.val t.rdata| ≤ Exact.piF) ∧
  ∀ s : State, ∃ t u, exec (.normalize 0xC00921FB54442D19#64) s = .next t ∧ t.rdata = 0x400921FB54442D18#64 ∧
    exec (.normalize 0x400921FB54442D19#64) s = .next u ∧ u.rdata = 0xC00921FB54442D18#64

/-- R106: For every finite x and state, exec of NORMALIZE answers a next state, and val(RDATA) differs from val(x) - n *
TWO_PI_C by at most 2^-52, for n = -floor((PI_C - val(x)) / TWO_PI_C), which is 0 in range. -/
def Obligations.NormalizeGivesAnEquivalentAngle : Prop :=
  ∀ (x : Word) (s : State), Exact.isFinite x = true → ∃ t, exec (.normalize x) s = .next t ∧
    |Exact.val t.rdata - (Exact.val x - (-⌊(Exact.piC - Exact.val x) / Exact.twoPiC⌋ : ℤ) * Exact.twoPiC)| ≤ 1 / 2 ^ 52 ∧
    (|Exact.val x| ≤ Exact.piF → ⌊(Exact.piC - Exact.val x) / Exact.twoPiC⌋ = 0)

/-- R107: For every operand word, NaNs and infinities included, and every state: NORMALIZE completes, NORMALIZE of the
word it leaves in RDATA completes after it, and RDATA is the same word. -/
def Obligations.NormalizeIsIdempotent : Prop :=
  ∀ (x : Word) (s : State), ∃ t u, exec (.normalize x) s = .next t ∧ exec (.normalize t.rdata) t = .next u ∧
    u.rdata = t.rdata

/-- R111: For every finite x and state: NORMALIZE completes; ENCODE of its result completes and leaves RNG as it was;
ENCODE of x itself completes; and the two samples differ by at most 1. -/
def Obligations.NormalizeThenEncodeMeetsThePrecondition : Prop :=
  ∀ (x : Word) (s : State), Exact.isFinite x = true →
    ∃ t u w, exec (.normalize x) s = .next t ∧ exec (.encode t.rdata) t = .next u ∧ exec (.encode x) s = .next w ∧
      u.rng = s.rng ∧ |u.rdata.toInt - w.rdata.toInt| ≤ 1

/-- 41_normalizer.md R109: For every rational v and integer k, reduce(v + k * TWO_PI_C) = reduce(v); and the machine's
reduce gives the same quanta for v and for v plus k periods in quanta. -/
def Obligations.ReductionIsPeriodic : Prop :=
  (∀ (v : ℚ) (k : ℤ), Exact.reduce (v + k * Exact.twoPiC) = Exact.reduce v) ∧
  ∀ v k : Int, Machine.reduce (v + k * twoPiC) = Machine.reduce v

/-- 40_codec.md R88, R93, 41_normalizer.md R110: encode(0) = 0; encode(PI_F) = INT32_MAX; encode(1.0) = 0x28BE60DC with no
flag; encode(4.0) = 0xA2F9836E with RNG; decode(INT32_MIN) = -PI_F; decode(120) = 0x3E878FDB9EFFEA47; normalize(0) =
0; normalize of the word nearest 3 pi is the word just below PI_F; normalize(4.0) = 0xC00243F6A8885A31;
normalize(1000.0) = 0x3FEF27354D3FEF61. -/
def Obligations.KnownValuesOfTheSource : Prop :=
  encodeAngle 0x0000000000000000#64 = (0x00000000#32, []) ∧ encodeAngle 0x400921FB54442D18#64 = (0x7FFFFFFF#32, []) ∧
  encodeAngle 0x3FF0000000000000#64 = (0x28BE60DC#32, []) ∧ encodeAngle 0x4010000000000000#64 = (0xA2F9836E#32, [.rng]) ∧
  decodeSample 0x80000000#32 = 0xC00921FB54442D18#64 ∧ decodeSample 0x00000078#32 = 0x3E878FDB9EFFEA47#64 ∧
  normalizeAngle 0x0000000000000000#64 = (0x0000000000000000#64, []) ∧
  normalizeAngle 0x4022D97C7F3321D2#64 = (0x400921FB54442D17#64, []) ∧
  normalizeAngle 0x4010000000000000#64 = (0xC00243F6A8885A31#64, []) ∧
  normalizeAngle 0x408F400000000000#64 = (0x3FEF27354D3FEF61#64, [])

/-- 30_encoding.md R60, R61, R62, R64, 20_memory.md R49: For every command i, with any of the 2^64 operand words, and any
bytes after it, decoding encodeBytes i followed by those bytes gives i and those bytes; and the command word of i is
its op value with bits 63:2 zero. The byte form is the model's (log entry 3). -/
def Obligations.DecodeOfEncodedCommandIsTheCommand : Prop :=
  ∀ (i : Instr) (tail : List Byte), Sys2Proof.decode (encodeBytes i ++ tail) = .ok (i, tail) ∧
    (encodeBytes i).length = 16 ∧ commandWordWellFormed (encode i).1 = true

/-- 30_encoding.md R64, R65: For every command word c and operand word v: c[1:0] = 00, 01, 10, 11 decodes to NONE, ENCODE,
DECODE, NORMALIZE with operand v, whatever bits 63:2 are; a command word with any of them set decodes as the word with
them clear; and any 16 bytes decode, leaving the bytes that follow. The last clause is about the byte form of a
command, which is the model's choice (log entry 3). -/
def Obligations.EveryCommandWordDecodesByItsLowBits : Prop :=
  (∀ c v : Word, (c &&& 3#64 = 0#64 → decodeWords c v = .none v) ∧ (c &&& 3#64 = 1#64 → decodeWords c v = .encode v) ∧
    (c &&& 3#64 = 2#64 → decodeWords c v = .decode v) ∧ (c &&& 3#64 = 3#64 → decodeWords c v = .normalize v) ∧
    decodeWords (c &&& 3#64) v = decodeWords c v) ∧
  ∀ bytes : List Byte, 16 ≤ bytes.length → ∃ i, Sys2Proof.decode bytes = .ok (i, bytes.drop 16)

/-- 30_encoding.md R61, R62, R64, 20_memory.md R49: The bytes of the command words 0, 1, 2, 3 followed by an operand
written out byte by byte, low byte first, decode to NONE with operand 1.0, ENCODE 1.0, DECODE of sample 120 and
NORMALIZE 4.0; and so does the command word 0 with the operand word 1.0, as words. The layout of the pair of words as
bytes is the model's choice (log entry 3). -/
def Obligations.WrittenOutWordsDecode : Prop :=
  decodeWords 0x0000000000000000#64 0x3FF0000000000000#64 = .none 0x3FF0000000000000#64 ∧
  Sys2Proof.decode [0, 0, 0, 0, 0, 0, 0, 0, 0, 0, 0, 0, 0, 0, 0xF0, 0x3F] = .ok (.none 0x3FF0000000000000#64, []) ∧
  Sys2Proof.decode [1, 0, 0, 0, 0, 0, 0, 0, 0, 0, 0, 0, 0, 0, 0xF0, 0x3F] = .ok (.encode 0x3FF0000000000000#64, []) ∧
  Sys2Proof.decode [2, 0, 0, 0, 0, 0, 0, 0, 0x78, 0, 0, 0, 0, 0, 0, 0] = .ok (.decode 0x0000000000000078#64, []) ∧
  Sys2Proof.decode [3, 0, 0, 0, 0, 0, 0, 0, 0, 0, 0, 0, 0, 0, 0x10, 0x40] = .ok (.normalize 0x4010000000000000#64, [])

/-- 30_encoding.md R68, 30_encoding.md R60: From every state, the three host steps of ENCODE x, DECODE s or NORMALIZE x
issued by master m complete, the value returned last is sext(encode(x)), decode(s) or normalize(x), returned to m,
RRDY is 0 after it, and UNR is as it was. -/
def Obligations.IssuedCommandReturnsItsResult : Prop :=
  ∀ (s : State) (m : Nat) (x : Word) (w : Sample) (rest : List HostStep),
    (∃ t, Sys2Proof.core.run 3 { s with pending := asmEncode m x ++ rest } = .next t ∧ t.pending = rest ∧
      t.responses = { master := m, value := (Exact.encode x).1.signExtend 64 } :: s.responses ∧
      t.rrdy = false ∧ t.unr = s.unr) ∧
    (∃ t, Sys2Proof.core.run 3 { s with pending := asmDecode m w ++ rest } = .next t ∧ t.pending = rest ∧
      t.responses = { master := m, value := Exact.decode w } :: s.responses ∧ t.rrdy = false ∧ t.unr = s.unr) ∧
    (∃ t, Sys2Proof.core.run 3 { s with pending := asmNormalize m x ++ rest } = .next t ∧ t.pending = rest ∧
      t.responses = { master := m, value := (Exact.normalize x).1 } :: s.responses ∧
      t.rrdy = false ∧ t.unr = s.unr)
end

