-- ==== Sys2Proof/Laws/Arith.lean ====
section
/-! SUPPORT. The machine's integers against the spec's rationals: each primitive of Machine/Arith.lean and
Machine/Operands.lean, read in quanta of 2^-1074 or as a fraction, is its counterpart of Sys2Proof/Exact.lean. -/

namespace Sys2Proof.Machine

theorem natCast_shiftLeft (m n : Nat) : ((m <<< n : Nat) : ℚ) = m * 2 ^ n := by
  rw [Nat.shiftLeft_eq]; push_cast; ring

/-- `PI_C` (R21): the machine's quanta are the spec's rational. -/
theorem shiftLeft_pos {a : Nat} (b : Nat) (h : 0 < a) : 0 < a <<< b := by
  rw [Nat.shiftLeft_eq]; positivity

theorem piC_pos : 0 < piC := shiftLeft_pos 1012 (by decide : 0 < piN)

theorem piC_quanta : (piC : ℚ) / 2 ^ 1074 = Exact.piC := by
  have h : ∀ a b : ℕ, ((a <<< b : ℕ) : ℚ) / 2 ^ (b + 62) = a / 2 ^ 62 := by
    intro a b; rw [natCast_shiftLeft, pow_add, mul_comm (a : ℚ), mul_div_mul_left _ _ (by positivity)]
  have h2 : ((piN : ℕ) : ℚ) = 0xC90FDAA22168C235 := by norm_num [piN]
  have := h piN 1012
  rw [h2] at this
  exact this

theorem twoPiC_quanta : (twoPiC : ℚ) / 2 ^ 1074 = Exact.twoPiC := by
  rw [Exact.twoPiC, ← piC_quanta, twoPiC, Nat.cast_mul, mul_div_assoc, Nat.cast_ofNat]

theorem isFinite_exact (x : Word) : Machine.isFinite x = Exact.isFinite x := by
  unfold Machine.isFinite Exact.isFinite exponentField
  rw [bne, bne, Bool.not_inj_iff, Bool.eq_iff_iff, beq_iff_eq, beq_iff_eq]
  constructor
  · intro h; exact BitVec.eq_of_toNat_eq (by simpa using h)
  · intro h; rw [h]; rfl

/-- `val` (R19): the machine's quanta are the spec's rational, for every word. -/
theorem val_quanta (x : Word) : (Machine.val x : ℚ) / 2 ^ 1074 = Exact.val x := by
  unfold Machine.val Exact.val magnitude signBit exponentField fractionField
  generalize x.getLsbD 63 = s
  generalize (x.extractLsb' 52 11).toNat = e
  generalize (x.extractLsb' 0 52).toNat = m
  have key : ∀ n : ℕ, (n : ℚ) / 2 ^ 1074 = n * 2 ^ (-1074 : ℤ) := by
    intro n; rw [zpow_neg, div_eq_mul_inv]; norm_cast
  by_cases he : e = 0
  · subst he
    cases s <;> simp [key, neg_div]
  · obtain ⟨k, rfl⟩ : ∃ k, e = k + 1 := ⟨e - 1, by omega⟩
    have h2 : (2 : ℚ) ^ (((k + 1 : ℕ) : ℤ) - 1075) = 2 ^ k / 2 ^ 1074 := by
      rw [show ((k + 1 : ℕ) : ℤ) - 1075 = (k : ℤ) - (1074 : ℕ) by push_cast; ring, zpow_sub₀ (by norm_num),
        zpow_natCast, zpow_natCast]
    have h3 : (((0x10000000000000 + m) <<< k : ℕ) : ℚ) = (2 ^ 52 + m) * 2 ^ k := by
      rw [natCast_shiftLeft]; push_cast; norm_num
    simp only [Nat.add_sub_cancel, if_neg (Nat.succ_ne_zero k), h2]
    cases s
    · simp only [Bool.false_eq_true, if_false, Int.cast_natCast, h3]; ring
    · simp only [if_true, Int.cast_neg, Int.cast_natCast, h3]; ring

theorem piF_quanta : (piF : ℚ) / 2 ^ 1074 = Exact.piF := by
  rw [piF, val_quanta]
  have hs : piFBits.getLsbD 63 = false := by decide
  have he : (piFBits.extractLsb' 52 11).toNat = 1024 := by decide
  have hm : (piFBits.extractLsb' 0 52).toNat = 2570638124657944 := by decide
  unfold Exact.val Exact.piF
  rw [hs, he, hm]
  norm_num

theorem inRange_exact (x : Word) : inRange x = decide (|Exact.val x| ≤ Exact.piF) := by
  rw [inRange, decide_eq_decide, ← val_quanta, ← piF_quanta, abs_div, abs_of_pos (by positivity : (0 : ℚ) < 2 ^ 1074),
    div_le_div_iff_of_pos_right (by positivity)]
  norm_cast

theorem fmodFloor_eq_emod (a m : Int) : fmodFloor a m = a % m := by
  rw [fmodFloor, Int.emod_def]

/-- `floor(num / den)` of R18 is integer division. -/
theorem floor_fraction (num : Int) (den : Nat) : ⌊(num : ℚ) / (den : ℚ)⌋ = num / (den : Int) :=
  Rat.floor_intCast_div_natCast num den

/-- `rint_even` (R18) of a fraction. -/
theorem rintEven_exact (num : Int) (den : Nat) (h : 0 < den) :
    rintEven num den = Exact.rintEven ((num : ℚ) / den) := by
  have hd : (0 : ℚ) < den := by exact_mod_cast h
  have hr : (num : ℚ) / den - ((num / (den : Int) : Int) : ℚ) = ((num % (den : Int) : Int) : ℚ) / den := by
    rw [Int.emod_def]; push_cast; field_simp
  have h1 : (num : ℚ) / den - ((num / (den : Int) : Int) : ℚ) < 1 / 2 ↔ 2 * (num % (den : Int)) < den := by
    rw [hr, div_lt_div_iff₀ hd (by norm_num)]
    constructor <;> intro h' <;> [(have : (num % (den:Int)) * 2 < 1 * (den : Int) := by exact_mod_cast h'); (have : ((2 * (num % (den:Int)) : Int) : ℚ) < ((den : Int) : ℚ) := by exact_mod_cast h')]
    · omega
    · push_cast at this; linarith
  have h2 : 1 / 2 < (num : ℚ) / den - ((num / (den : Int) : Int) : ℚ) ↔ (den : Int) < 2 * (num % (den : Int)) := by
    rw [hr, div_lt_div_iff₀ (by norm_num) hd]
    constructor <;> intro h' <;> [(have : 1 * (den : Int) < (num % (den:Int)) * 2 := by exact_mod_cast h'); (have : ((den : Int) : ℚ) < ((2 * (num % (den:Int)) : Int) : ℚ) := by exact_mod_cast h')]
    · omega
    · push_cast at this; linarith
  unfold rintEven Exact.rintEven
  rw [floor_fraction]
  simp only [h1, h2, Int.dvd_iff_emod_eq_zero]

theorem sat32_exact (k : Int) : Machine.sat32 k = Exact.sat32 k := by
  unfold Machine.sat32 Exact.sat32 int32Max int32Min; omega

/-- `floor(log2 a)` (R20) of a positive fraction. -/
theorem floorLog2_exact (num den : Nat) (hn : 0 < num) (hd : 0 < den) :
    floorLog2 num den = Int.log 2 ((num : ℚ) / den) := by
  have hn2 : (0 : ℚ) < num := by exact_mod_cast hn
  have hd2 : (0 : ℚ) < den := by exact_mod_cast hd
  have bounds : ∀ n : ℕ, 0 < n → (2 : ℚ) ^ (n.log2) ≤ n ∧ (n : ℚ) < 2 ^ (n.log2 + 1) := by
    intro n h
    exact ⟨by exact_mod_cast Nat.log2_self_le (by omega), by exact_mod_cast Nat.lt_log2_self⟩
  obtain ⟨a1, a2⟩ := bounds num hn
  obtain ⟨b1, b2⟩ := bounds den hd
  set l : Int := (num.log2 : Int) - (den.log2 : Int) with hl
  have hpow : (2 : ℚ) ^ l = 2 ^ num.log2 / 2 ^ den.log2 := by
    rw [hl, zpow_sub₀ (by norm_num), zpow_natCast, zpow_natCast]
  have cmp : (den <<< l.toNat ≤ num <<< (-l).toNat) ↔ (2 : ℚ) ^ l ≤ num / den := by
    rw [le_div_iff₀ hd2]
    have : ((den <<< l.toNat : ℕ) : ℚ) ≤ ((num <<< (-l).toNat : ℕ) : ℚ) ↔ (2 : ℚ) ^ l * den ≤ num := by
      rw [natCast_shiftLeft, natCast_shiftLeft]
      rcases le_total 0 l with h | h
      · obtain ⟨k, hk⟩ := Int.eq_ofNat_of_zero_le h
        rw [hk]; simp [mul_comm]
      · obtain ⟨k, hk⟩ := Int.eq_ofNat_of_zero_le (by omega : 0 ≤ -l)
        rw [show l = -(k : Int) by omega]
        simp only [neg_neg, Int.toNat_natCast, Int.toNat_neg_natCast, pow_zero, mul_one, zpow_neg, zpow_natCast]
        rw [inv_mul_le_iff₀ (by positivity), mul_comm]
    rw [← this]; norm_cast
  have hi : (num : ℚ) / den < 2 ^ (l + 1) := by
    rw [zpow_add₀ (by norm_num), hpow, div_lt_iff₀ hd2]
    have : (2 : ℚ) ^ num.log2 / 2 ^ den.log2 * 2 ^ (1 : ℤ) * den = 2 ^ (num.log2 + 1) * (den / 2 ^ den.log2) := by
      rw [pow_succ]; simp only [zpow_one]; ring
    rw [this]
    have : (1 : ℚ) ≤ den / 2 ^ den.log2 := by rw [le_div_iff₀ (by positivity)]; simpa using b1
    calc (num : ℚ) < 2 ^ (num.log2 + 1) * 1 := by simpa using a2
      _ ≤ _ := by gcongr
  have lo : (2 : ℚ) ^ (l - 1) ≤ num / den := by
    rw [zpow_sub₀ (by norm_num), hpow, le_div_iff₀ hd2]
    have : (2 : ℚ) ^ num.log2 / 2 ^ den.log2 / 2 ^ (1 : ℤ) * den = 2 ^ num.log2 * (den / 2 ^ (den.log2 + 1)) := by
      rw [pow_succ]; simp only [zpow_one]; ring
    rw [this]
    have : (den : ℚ) / 2 ^ (den.log2 + 1) ≤ 1 := by rw [div_le_iff₀ (by positivity)]; simpa using b2.le
    calc (2 : ℚ) ^ num.log2 * (den / 2 ^ (den.log2 + 1)) ≤ 2 ^ num.log2 * 1 := by gcongr
      _ ≤ num := by simpa using a1
  have hq : (0 : ℚ) < num / den := by positivity
  have char : ∀ k : Int, (2 : ℚ) ^ k ≤ num / den → (num : ℚ) / den < 2 ^ (k + 1) → Int.log 2 ((num : ℚ) / den) = k := by
    intro k h1 h2
    apply le_antisymm
    · have := (Int.lt_zpow_iff_log_lt (b := 2) (by norm_num) hq (x := k + 1)).1 (by exact_mod_cast h2)
      omega
    · exact (Int.zpow_le_iff_le_log (b := 2) (by norm_num) hq).1 (by exact_mod_cast h1)
  show (if den <<< l.toNat ≤ num <<< (-l).toNat then l else l - 1) = _
  split
  · next h => rw [char l (cmp.1 h) hi]
  · next h => rw [char (l - 1) lo (by rw [sub_add_cancel]; exact not_le.1 (fun h' => h (cmp.2 h')))]

/-- The integer `encode` saturates, for an operand in range, in the machine's integers (spec/40_codec.md R82). -/
theorem encodedInteger_exact {x : Word} (h : inRange x = true) :
    Exact.encodedInteger x = Machine.rintEven (Machine.val x * 2 ^ 31) Machine.piC := by
  have hr : |Exact.val x| ≤ Exact.piF := by rw [inRange_exact] at h; exact of_decide_eq_true h
  have hq : (0 : ℚ) < 2 ^ 1074 := by positivity
  have hp : (Machine.piC : ℚ) = Exact.piC * 2 ^ 1074 := by rw [← piC_quanta, div_mul_cancel₀ _ hq.ne']
  have hv : (Machine.val x : ℚ) = Exact.val x * 2 ^ 1074 := by rw [← val_quanta, div_mul_cancel₀ _ hq.ne']
  unfold Exact.encodedInteger Exact.encodedAngle
  rw [if_pos hr, rintEven_exact _ _ piC_pos]
  rw [Int.cast_mul, hv, hp]
  generalize (2 : ℚ) ^ 1074 = q at hq
  have hc : Exact.piC ≠ 0 := by norm_num [Exact.piC]
  have he : Exact.val x * q * ((2 ^ 31 : ℤ) : ℚ) / (Exact.piC * q) = Exact.val x * 2 ^ 31 / Exact.piC := by
    push_cast; field_simp; norm_num
  rw [he]

end Sys2Proof.Machine
end

