-- ==== Sys2Proof/Laws/Rounding.lean ====
section
/-! SUPPORT. The two roundings of the spec over ℚ (spec/00_scope.md R18, R20): `rint_even` is nearest, monotone and odd;
`RNE` delivers the rounded significand at its exponent, within half a step. -/

namespace Sys2Proof.Exact

/-! ### `rint_even` -/

theorem rintEven_intCast (k : ℤ) : rintEven (k : ℚ) = k := by
  unfold rintEven; rw [if_pos (by simp)]; simp

theorem rintEven_near (q : ℚ) : |(rintEven q : ℚ) - q| ≤ 1 / 2 := by
  have h0 := Int.floor_le q
  have h1 := Int.lt_floor_add_one q
  unfold rintEven
  split_ifs <;> push_cast <;> rw [abs_le] <;> constructor <;> linarith

theorem rintEven_floor_or (q : ℚ) : rintEven q = ⌊q⌋ ∨ rintEven q = ⌊q⌋ + 1 := by
  unfold rintEven; split_ifs <;> simp

/-- The rounding of `q` is the integer `k` if `q` is strictly within 1/2 of it. -/
theorem rintEven_eq_of_near {q : ℚ} {k : ℤ} (h : |q - k| < 1 / 2) : rintEven q = k := by
  have := rintEven_near q
  rw [abs_le] at this
  rw [abs_lt] at h
  have h1 : ((rintEven q - k : ℤ) : ℚ) < 1 := by push_cast; linarith [h.1, h.2, this.1, this.2]
  have h2 : (-1 : ℚ) < ((rintEven q - k : ℤ) : ℚ) := by push_cast; linarith [h.1, h.2, this.1, this.2]
  have h1' : rintEven q - k < 1 := by exact_mod_cast h1
  have h2' : -1 < rintEven q - k := by exact_mod_cast h2
  omega

theorem rintEven_neg (q : ℚ) : rintEven (-q) = -rintEven q := by
  by_cases hq : q = (⌊q⌋ : ℚ)
  · rw [hq, ← Int.cast_neg, rintEven_intCast, rintEven_intCast]
  · have h0 := lt_of_le_of_ne (Int.floor_le q) (Ne.symm hq)
    have h1 := Int.lt_floor_add_one q
    have hf : ⌊-q⌋ = -⌊q⌋ - 1 := by
      rw [Int.floor_eq_iff]; push_cast; constructor <;> linarith
    rcases lt_trichotomy (q - ⌊q⌋) (1 / 2) with h | h | h
    · rw [rintEven_eq_of_near (q := q) (k := ⌊q⌋) (by rw [abs_lt]; constructor <;> linarith),
        rintEven_eq_of_near (q := -q) (k := -⌊q⌋) (by rw [abs_lt]; push_cast; constructor <;> linarith)]
    · have h' : -q - ⌊-q⌋ = 1 / 2 := by rw [hf]; push_cast; linarith
      unfold rintEven
      rw [h', h, hf]
      simp only [lt_irrefl, if_false]
      split_ifs <;> omega
    · rw [rintEven_eq_of_near (q := q) (k := ⌊q⌋ + 1) (by rw [abs_lt]; push_cast; constructor <;> linarith),
        rintEven_eq_of_near (q := -q) (k := -(⌊q⌋ + 1)) (by rw [abs_lt]; push_cast; constructor <;> linarith)]

theorem rintEven_mono {a b : ℚ} (h : a ≤ b) : rintEven a ≤ rintEven b := by
  have ha := abs_le.1 (rintEven_near a)
  have hb := abs_le.1 (rintEven_near b)
  by_contra hlt
  have h1 : rintEven b + 1 ≤ rintEven a := by omega
  have h1' : (rintEven b : ℚ) + 1 ≤ rintEven a := by exact_mod_cast h1
  have : a = b := by linarith [ha.1, ha.2, hb.1, hb.2]
  subst this
  omega

theorem rintEven_le_of_le {q : ℚ} {k : ℤ} (h : q ≤ k) : rintEven q ≤ k := by
  simpa [rintEven_intCast] using rintEven_mono h

theorem le_rintEven_of_le {q : ℚ} {k : ℤ} (h : (k : ℚ) ≤ q) : k ≤ rintEven q := by
  simpa [rintEven_intCast] using rintEven_mono h

/-! ### The fields of a packed binary64 word -/

theorem packed_sign (s : BitVec 1) (e : BitVec 11) (m : BitVec 52) :
    ((s ++ e ++ m : BitVec (1 + 11 + 52)) : Word).getLsbD 63 = s.getLsbD 0 := by
  rw [BitVec.getLsbD_append, BitVec.getLsbD_append]; rfl

theorem packed_exponent (s : BitVec 1) (e : BitVec 11) (m : BitVec 52) :
    ((s ++ e ++ m : BitVec (1 + 11 + 52)) : Word).extractLsb' 52 11 = e := by
  apply BitVec.eq_of_getLsbD_eq
  intro i hi
  simp only [BitVec.getLsbD_extractLsb', BitVec.getLsbD_append, hi, decide_true, Bool.true_and]
  rw [if_neg (by omega), show 52 + i - 52 = i by omega, if_pos hi]

theorem packed_fraction (s : BitVec 1) (e : BitVec 11) (m : BitVec 52) :
    ((s ++ e ++ m : BitVec (1 + 11 + 52)) : Word).extractLsb' 0 52 = m := by
  apply BitVec.eq_of_getLsbD_eq
  intro i hi
  simp only [BitVec.getLsbD_extractLsb', BitVec.getLsbD_append, hi, decide_true, Bool.true_and, Nat.zero_add, if_true]

/-- A binary64 word is determined by its three fields (R19). -/
theorem word_eq_of_fields {a b : Word} (h1 : a.getLsbD 63 = b.getLsbD 63)
    (h2 : a.extractLsb' 52 11 = b.extractLsb' 52 11) (h3 : a.extractLsb' 0 52 = b.extractLsb' 0 52) : a = b := by
  apply BitVec.eq_of_getLsbD_eq
  intro i hi
  rcases Nat.lt_or_ge i 52 with h | h
  · have := congrArg (fun z => BitVec.getLsbD z i) h3
    simpa [BitVec.getLsbD_extractLsb', h] using this
  · rcases Nat.lt_or_ge i 63 with h' | h'
    · have := congrArg (fun z => BitVec.getLsbD z (i - 52)) h2
      simpa [BitVec.getLsbD_extractLsb', show i - 52 < 11 by omega, show 52 + (i - 52) = i by omega] using this
    · rw [show i = 63 by omega]; exact h1

/-- `val` of a packed word of a normal number (R19). -/
theorem val_packed_normal (s : BitVec 1) (e : BitVec 11) (m : BitVec 52) (he : e.toNat ≠ 0) :
    val (s ++ e ++ m : BitVec (1 + 11 + 52)) =
      (if s = 1#1 then -1 else 1) * (2 ^ 52 + (m.toNat : ℚ)) * 2 ^ ((e.toNat : ℤ) - 1075) := by
  have hs : (s.getLsbD 0 = true) ↔ s = 1#1 := by revert s; decide
  simp only [val, packed_sign, packed_exponent, packed_fraction, if_neg he, hs]

/-- `val` of a packed word of a zero or a subnormal number (R19). -/
theorem val_packed_subnormal (s : BitVec 1) (m : BitVec 52) :
    val (s ++ 0#11 ++ m : BitVec (1 + 11 + 52)) =
      (if s = 1#1 then -1 else 1) * (m.toNat : ℚ) * 2 ^ (-1074 : ℤ) := by
  have hs : (s.getLsbD 0 = true) ↔ s = 1#1 := by revert s; decide
  simp only [val, packed_sign, packed_exponent, packed_fraction, BitVec.toNat_ofNat, Nat.zero_mod, if_true, hs]

/-! ### `RNE` -/

/-- The exponent of the binade in which `RNE` rounds (R20). -/
def roundingExponent (q : ℚ) : ℤ := max (Int.log 2 |q|) (-1022)

/-- The rounded significand of `RNE` (R20), before the carry. -/
def roundedSignificand (q : ℚ) : ℤ := rintEven (|q| / 2 ^ (roundingExponent q - 52))

theorem abs_lt_two_mul_binade (q : ℚ) : |q| < 2 ^ (roundingExponent q + 1) := by
  have h := Int.lt_zpow_succ_log_self (b := 2) (by norm_num) |q|
  push_cast at h
  exact lt_of_lt_of_le h (zpow_le_zpow_right₀ (by norm_num) (by unfold roundingExponent; omega))

theorem roundedSignificand_bounds (q : ℚ) : 0 ≤ roundedSignificand q ∧ roundedSignificand q ≤ 2 ^ 53 := by
  constructor
  · apply le_rintEven_of_le; push_cast; positivity
  · apply rintEven_le_of_le
    rw [div_le_iff₀ (by positivity)]
    push_cast
    have := (abs_lt_two_mul_binade q).le
    rwa [show roundingExponent q + 1 = 53 + (roundingExponent q - 52) by ring, zpow_add₀ (by norm_num)] at this

/-- In a normal binade the significand is at least 2^52. -/
theorem roundedSignificand_normal {q : ℚ} (hq : q ≠ 0) (h : -1022 < roundingExponent q ∨ (2 : ℚ) ^ (-1022 : ℤ) ≤ |q|) :
    2 ^ 52 ≤ roundedSignificand q := by
  have hpos : 0 < |q| := abs_pos.2 hq
  have hle : (2 : ℚ) ^ roundingExponent q ≤ |q| := by
    have hlog := Int.zpow_log_le_self (b := 2) (by norm_num) hpos
    push_cast at hlog
    rcases h with h | h
    · rwa [roundingExponent, max_eq_left (by unfold roundingExponent at h; omega)]
    · rcases le_total (Int.log 2 |q|) (-1022) with h' | h'
      · rwa [roundingExponent, max_eq_right h']
      · rwa [roundingExponent, max_eq_left h']
  apply le_rintEven_of_le
  rw [le_div_iff₀ (by positivity)]
  rwa [Int.cast_pow, Int.cast_ofNat, ← zpow_natCast, ← zpow_add₀ (by norm_num),
    show ((52 : ℕ) : ℤ) + (roundingExponent q - 52) = roundingExponent q by push_cast; ring]

/-- What `RNE` delivers below the overflow threshold: a finite word of the sign of `q`, whose magnitude is the rounded
significand at the rounding exponent (R20). -/
theorem val_RNE {q : ℚ} (hq : q ≠ 0) (h : roundingExponent q < 1023) :
    isFinite (RNE q) = true ∧ (RNE q).getLsbD 63 = decide (q < 0) ∧
      val (RNE q) = (if q < 0 then -1 else 1) * roundedSignificand q * 2 ^ (roundingExponent q - 52) := by
  obtain ⟨n0, n1⟩ := roundedSignificand_bounds q
  have hE : -1022 ≤ roundingExponent q := le_max_right _ _
  have hn52 : roundingExponent q = -1022 ∨ 2 ^ 52 ≤ roundedSignificand q := by
    by_cases h' : -1022 < roundingExponent q
    · exact .inr (roundedSignificand_normal hq (.inl h'))
    · exact .inl (by omega)
  have hs1 : (if q < 0 then 1#1 else 0#1 : BitVec 1).getLsbD 0 = decide (q < 0) := by split_ifs with h <;> simp [h]
  have hs2 : ((if q < 0 then 1#1 else 0#1 : BitVec 1) = 1#1) ↔ q < 0 := by split_ifs with h <;> simp [h]
  unfold RNE
  simp only [if_neg hq]
  rw [← roundingExponent, ← roundedSignificand]
  generalize roundingExponent q = e at *
  generalize roundedSignificand q = n at *
  have field : ∀ k : ℤ, 0 ≤ k → k < 2 ^ 11 → (BitVec.ofInt 11 k).toNat = k.toNat := by
    intro k h1 h2; rw [BitVec.toNat_ofInt]; congr 1; exact Int.emod_eq_of_lt h1 (by simpa using h2)
  have frac : ∀ k : ℤ, 0 ≤ k → k < 2 ^ 52 → ((BitVec.ofInt 52 k).toNat : ℚ) = k := by
    intro k h1 h2
    rw [BitVec.toNat_ofInt, Int.emod_eq_of_lt h1 (by simpa using h2)]
    exact_mod_cast congrArg (fun z : ℤ => (z : ℚ)) (Int.toNat_of_nonneg h1)
  have fin : ∀ (s : BitVec 1) (E : BitVec 11) (m : BitVec 52), E.toNat < 2047 →
      isFinite (s ++ E ++ m : BitVec (1 + 11 + 52)) = true := by
    intro s E m h
    unfold isFinite
    rw [packed_exponent, bne_iff_ne]
    rintro rfl
    simp at h
  by_cases hc : n = 2 ^ 53
  · have hE1 : 1 ≤ e + 1 + 1023 ∧ e + 1 + 1023 < 2047 := by omega
    have hf := field (e + 1 + 1023) (by omega) (by omega)
    rw [if_pos hc, if_pos hc, if_neg (by omega), if_neg (by norm_num)]
    refine ⟨fin _ _ _ (by rw [hf]; omega), by rw [packed_sign, hs1], ?_⟩
    rw [val_packed_normal _ _ _ (by rw [hf]; omega), frac _ (by norm_num) (by norm_num), hf,
      Int.toNat_of_nonneg (by omega), hc]
    simp only [hs2]
    rw [show e + 1 + 1023 - 1075 = 1 + (e - 52) by ring, zpow_add₀ (by norm_num)]
    push_cast
    ring
  · rw [if_neg hc, if_neg hc, if_neg (by omega)]
    by_cases hsub : n < 2 ^ 52
    · have he : e = -1022 := by omega
      rw [if_pos hsub]
      refine ⟨fin _ _ _ (by simp), by rw [packed_sign, hs1], ?_⟩
      rw [val_packed_subnormal, frac _ n0 hsub, he]
      simp only [hs2]
      norm_num
    · have hf := field (e + 1023) (by omega) (by omega)
      rw [if_neg hsub]
      refine ⟨fin _ _ _ (by rw [hf]; omega), by rw [packed_sign, hs1], ?_⟩
      rw [val_packed_normal _ _ _ (by rw [hf]; omega), frac _ (by omega) (by omega), hf,
        Int.toNat_of_nonneg (by omega)]
      simp only [hs2]
      rw [show e + 1023 - 1075 = e - 52 by ring]
      push_cast
      ring

/-- `RNE` is within half a step of its argument. -/
theorem val_RNE_near {q : ℚ} (hq : q ≠ 0) (h : roundingExponent q < 1023) :
    |val (RNE q) - q| ≤ 2 ^ (roundingExponent q - 53) := by
  rw [(val_RNE hq h).2.2]
  have hp : (0 : ℚ) < 2 ^ (roundingExponent q - 52) := by positivity
  have key : abs ((roundedSignificand q : ℚ) * 2 ^ (roundingExponent q - 52) - |q|) ≤ 2 ^ (roundingExponent q - 53) := by
    have := rintEven_near (|q| / 2 ^ (roundingExponent q - 52))
    rw [← roundedSignificand] at this
    calc _ = |(roundedSignificand q : ℚ) - |q| / 2 ^ (roundingExponent q - 52)| * 2 ^ (roundingExponent q - 52) := by
            rw [← abs_of_pos hp, ← abs_mul, abs_of_pos hp, sub_mul, div_mul_cancel₀ _ hp.ne']
      _ ≤ 1 / 2 * 2 ^ (roundingExponent q - 52) := by gcongr
      _ = 2 ^ (roundingExponent q - 53) := by
            rw [show roundingExponent q - 52 = 1 + (roundingExponent q - 53) by ring, zpow_add₀ (by norm_num),
              zpow_one]
            ring
  split_ifs with hs
  · rw [abs_of_neg hs] at key
    rw [show (-1 : ℚ) * roundedSignificand q * 2 ^ (roundingExponent q - 52) - q
      = -((roundedSignificand q : ℚ) * 2 ^ (roundingExponent q - 52) - -q) by ring, abs_neg]
    exact key
  · rw [abs_of_nonneg (not_lt.1 hs)] at key
    simpa using key

theorem roundingExponent_le {q : ℚ} {k : ℤ} (hq : q ≠ 0) (hk : -1022 ≤ k) (h : |q| < 2 ^ (k + 1)) :
    roundingExponent q ≤ k := by
  have := (Int.lt_zpow_iff_log_lt (b := 2) (by norm_num) (abs_pos.2 hq) (x := k + 1)).1 (by exact_mod_cast h)
  unfold roundingExponent
  omega

/-! ### Words as values -/

/-- `-x`: the word with bit 63 inverted. -/
theorem negated_fields (x : Word) :
    (x ^^^ 0x8000000000000000#64).getLsbD 63 = !x.getLsbD 63 ∧
      (x ^^^ 0x8000000000000000#64).extractLsb' 52 11 = x.extractLsb' 52 11 ∧
      (x ^^^ 0x8000000000000000#64).extractLsb' 0 52 = x.extractLsb' 0 52 := by
  refine ⟨by simp, ?_, ?_⟩
  · rw [BitVec.extractLsb'_xor, show (0x8000000000000000#64 : Word).extractLsb' 52 11 = 0#11 by decide, BitVec.xor_zero]
  · rw [BitVec.extractLsb'_xor, show (0x8000000000000000#64 : Word).extractLsb' 0 52 = 0#52 by decide, BitVec.xor_zero]

/-- The magnitude of a word (R19): `val` without its sign. -/
def magnitude (x : Word) : ℚ :=
  if (x.extractLsb' 52 11).toNat = 0 then ((x.extractLsb' 0 52).toNat : ℚ) * 2 ^ (-1074 : ℤ)
  else (2 ^ 52 + ((x.extractLsb' 0 52).toNat : ℚ)) * 2 ^ (((x.extractLsb' 52 11).toNat : ℤ) - 1075)

theorem magnitude_nonneg (x : Word) : 0 ≤ magnitude x := by
  unfold magnitude; split_ifs <;> positivity

theorem val_eq_sign_mul (x : Word) : val x = (if x.getLsbD 63 = true then -1 else 1) * magnitude x := by
  simp only [val, magnitude, mul_ite, mul_assoc]

theorem abs_val (x : Word) : |val x| = magnitude x := by
  rw [val_eq_sign_mul, abs_mul, abs_of_nonneg (magnitude_nonneg x)]
  split_ifs <;> simp

theorem val_negated (x : Word) : val (x ^^^ 0x8000000000000000#64) = -val x := by
  obtain ⟨h1, h2, h3⟩ := negated_fields x
  have hm : magnitude (x ^^^ 0x8000000000000000#64) = magnitude x := by simp only [magnitude, h2, h3]
  rw [val_eq_sign_mul, val_eq_sign_mul, hm, h1]
  cases x.getLsbD 63 <;> simp

theorem isFinite_negated (x : Word) : isFinite (x ^^^ 0x8000000000000000#64) = isFinite x := by
  unfold isFinite; rw [(negated_fields x).2.1]

theorem RNE_neg {q : ℚ} (hq : q ≠ 0) : RNE (-q) = RNE q ^^^ 0x8000000000000000#64 := by
  have flip : ∀ (E : BitVec 11) (m : BitVec 52),
      ((if -q < 0 then 1#1 else 0#1) ++ E ++ m : BitVec (1 + 11 + 52)) =
        (((if q < 0 then 1#1 else 0#1) ++ E ++ m : BitVec (1 + 11 + 52)) : Word) ^^^ 0x8000000000000000#64 := by
    intro E m
    apply word_eq_of_fields
    · rw [(negated_fields _).1, packed_sign, packed_sign]
      rcases lt_or_gt_of_ne hq with h | h
      · rw [if_neg (by linarith), if_pos h]; rfl
      · rw [if_pos (by linarith), if_neg (by linarith)]; rfl
    · rw [(negated_fields _).2.1, packed_exponent, packed_exponent]
    · rw [(negated_fields _).2.2, packed_fraction, packed_fraction]
  unfold RNE
  simp only [if_neg hq, if_neg (neg_ne_zero.2 hq), abs_neg, flip]
  split_ifs <;> rfl

theorem val_neg_iff {x : Word} (h : val x ≠ 0) : val x < 0 ↔ x.getLsbD 63 = true := by
  rw [val_eq_sign_mul] at *
  have hm := lt_of_le_of_ne (magnitude_nonneg x) (fun h' => h (by rw [← h', mul_zero]))
  cases x.getLsbD 63
  · simp [hm.le]
  · simp [hm]

/-- `RNE` in a normal binade without carry (R20). -/
theorem RNE_normal {q : ℚ} {e n : ℤ} (hq : q ≠ 0) (he : roundingExponent q = e) (hn : roundedSignificand q = n)
    (he' : e ≤ 1023) (h1 : 2 ^ 52 ≤ n) (h2 : n < 2 ^ 53) :
    RNE q = ((if q < 0 then 1#1 else 0#1) ++ BitVec.ofInt 11 (e + 1023) ++ BitVec.ofInt 52 (n - 2 ^ 52) :
      BitVec (1 + 11 + 52)) := by
  unfold RNE
  simp only [if_neg hq]
  rw [← roundingExponent, ← roundedSignificand, he, hn, if_neg h2.ne, if_neg h2.ne, if_neg (by omega), if_neg (by omega)]

/-- `RNE` to a zero or subnormal word (R20). -/
theorem RNE_subnormal {q : ℚ} {e n : ℤ} (hq : q ≠ 0) (he : roundingExponent q = e) (hn : roundedSignificand q = n)
    (he' : e ≤ 1023) (h2 : n < 2 ^ 52) :
    RNE q = ((if q < 0 then 1#1 else 0#1) ++ 0#11 ++ BitVec.ofInt 52 n : BitVec (1 + 11 + 52)) := by
  unfold RNE
  simp only [if_neg hq]
  have hne : n ≠ 2 ^ 53 := by omega
  rw [← roundingExponent, ← roundedSignificand, he, hn, if_neg hne, if_neg hne, if_neg (not_lt.2 he'), if_pos h2]

theorem exponent_lt_of_isFinite {x : Word} (hf : isFinite x = true) : (x.extractLsb' 52 11).toNat < 2047 := by
  have := (x.extractLsb' 52 11).isLt
  have hne : (x.extractLsb' 52 11).toNat ≠ 2047 := by
    intro h
    unfold isFinite at hf
    rw [show x.extractLsb' 52 11 = 2047#11 from BitVec.eq_of_toNat_eq (by simpa using h)] at hf
    simp at hf
  omega

theorem binade_normal {q : ℚ} {e : ℤ} {m : ℕ} (hm : m < 2 ^ 52) (he : -1022 ≤ e)
    (h : |q| = (2 ^ 52 + m) * 2 ^ (e - 52)) : roundingExponent q = e ∧ roundedSignificand q = 2 ^ 52 + m := by
  have hm' : (m : ℚ) < 2 ^ 52 := by exact_mod_cast hm
  have hm0 : (0 : ℚ) ≤ m := Nat.cast_nonneg m
  have hp : (0 : ℚ) < 2 ^ (e - 52) := by positivity
  have hpos : 0 < |q| := by rw [h]; positivity
  have h52 : ∀ k : ℕ, (2 : ℚ) ^ k * 2 ^ (e - 52) = 2 ^ (e + k - 52) := by
    intro k; rw [← zpow_natCast, ← zpow_add₀ (by norm_num)]; congr 1; ring
  have hE : roundingExponent q = e := by
    apply le_antisymm
    · apply roundingExponent_le (abs_pos.1 hpos) he
      calc |q| < 2 ^ 53 * 2 ^ (e - 52) := by rw [h]; gcongr; linarith
        _ = 2 ^ (e + 1) := by rw [h52]; congr 1; push_cast; ring
    · apply le_trans _ (le_max_left _ _)
      apply (Int.zpow_le_iff_le_log (b := 2) (by norm_num) hpos).1
      push_cast
      calc (2 : ℚ) ^ e = 2 ^ 52 * 2 ^ (e - 52) := by rw [h52]; congr 1; push_cast; ring
        _ ≤ |q| := by rw [h]; gcongr; linarith
  refine ⟨hE, ?_⟩
  rw [roundedSignificand, hE, h, mul_div_cancel_right₀ _ hp.ne']
  have hi := rintEven_intCast (2 ^ 52 + (m : ℤ))
  rwa [Int.cast_add, Int.cast_pow, Int.cast_ofNat, Int.cast_natCast] at hi

theorem binade_subnormal {q : ℚ} {m : ℕ} (hq : q ≠ 0) (hm : m < 2 ^ 52) (h : |q| = m * 2 ^ (-1074 : ℤ)) :
    roundingExponent q = -1022 ∧ roundedSignificand q = m := by
  have hm' : (m : ℚ) < 2 ^ 52 := by exact_mod_cast hm
  have hp : (0 : ℚ) < 2 ^ (-1074 : ℤ) := by positivity
  have hE : roundingExponent q = -1022 := by
    apply le_antisymm _ (le_max_right _ _)
    apply roundingExponent_le hq le_rfl
    calc |q| < 2 ^ 53 * 2 ^ (-1074 : ℤ) := by rw [h]; gcongr; linarith
      _ = 2 ^ (-1022 + 1 : ℤ) := by rw [← zpow_natCast, ← zpow_add₀ (by norm_num)]; norm_num
  refine ⟨hE, ?_⟩
  rw [roundedSignificand, hE, h, show (-1022 : ℤ) - 52 = -1074 by norm_num, mul_div_cancel_right₀ _ hp.ne']
  exact_mod_cast rintEven_intCast (m : ℤ)

/-- Rounding the value of a finite nonzero word gives the word back (R20). -/
theorem RNE_val {x : Word} (hf : isFinite x = true) (h0 : val x ≠ 0) : RNE (val x) = x := by
  have hsign := val_neg_iff h0
  have hm := (x.extractLsb' 0 52).isLt
  have he := exponent_lt_of_isFinite hf
  have habs := abs_val x
  unfold magnitude at habs
  have hx : ∀ (E : BitVec 11) (m : BitVec 52), E = x.extractLsb' 52 11 → m = x.extractLsb' 0 52 →
      ((if val x < 0 then 1#1 else 0#1) ++ E ++ m : BitVec (1 + 11 + 52)) = x := by
    intro E m hE hm
    apply word_eq_of_fields
    · rw [packed_sign]
      by_cases h : val x < 0
      · rw [if_pos h, hsign.1 h]; rfl
      · rw [if_neg h, Bool.eq_false_iff.2 (fun h' => h (hsign.2 h'))]; rfl
    · rw [packed_exponent, hE]
    · rw [packed_fraction, hm]
  by_cases hz : (x.extractLsb' 52 11).toNat = 0
  · rw [if_pos hz] at habs
    obtain ⟨hE, hN⟩ := binade_subnormal h0 hm habs
    rw [RNE_subnormal h0 hE hN (by norm_num) (by exact_mod_cast hm)]
    apply hx
    · exact BitVec.eq_of_toNat_eq (by rw [hz]; rfl)
    · apply BitVec.eq_of_toNat_eq; rw [BitVec.toNat_ofInt]; omega
  · rw [if_neg hz] at habs
    have hh : |val x| = (2 ^ 52 + ((x.extractLsb' 0 52).toNat : ℚ)) *
        2 ^ ((((x.extractLsb' 52 11).toNat : ℤ) - 1023) - 52) := by
      rw [habs]; congr 2; ring
    obtain ⟨hE, hN⟩ := binade_normal hm (by omega) hh
    rw [RNE_normal h0 hE hN (by omega) (by omega) (by omega)]
    apply hx
    · apply BitVec.eq_of_toNat_eq; rw [BitVec.toNat_ofInt]; omega
    · apply BitVec.eq_of_toNat_eq; rw [BitVec.toNat_ofInt]; omega

end Sys2Proof.Exact
end

