-- ==== Sys2Proof/Laws/Angles.lean ====
section
/-! SUPPORT. Angles over ℚ: the reduction, the rounding of an angle of at most `PI_C`, and the binary64 values that are
multiples of `PI_N`. -/

namespace Sys2Proof.Exact

theorem reduce_eq (v : ℚ) : reduce v = v - (-⌊(piC - v) / twoPiC⌋ : ℤ) * twoPiC := by
  unfold reduce fmodFloor; push_cast; ring

theorem twoPiC_pos : 0 < twoPiC := by norm_num [twoPiC, piC]

theorem piC_pos : 0 < piC := by norm_num [piC]

/-- The reduced angle lies in (−`PI_C`, `PI_C`] (spec/40_codec.md R81). -/
theorem reduce_mem (v : ℚ) : -piC < reduce v ∧ reduce v ≤ piC := by
  have h1 := Int.floor_le ((piC - v) / twoPiC)
  have h2 := Int.lt_floor_add_one ((piC - v) / twoPiC)
  rw [le_div_iff₀ twoPiC_pos] at h1
  rw [div_lt_iff₀ twoPiC_pos] at h2
  have h3 : twoPiC = 2 * piC := rfl
  rw [reduce_eq]; push_cast
  constructor <;> nlinarith

/-- The reduced angle is the only value of that interval which differs from `v` by whole periods. -/
theorem reduce_unique {v r : ℚ} {n : ℤ} (h1 : -piC < r) (h2 : r ≤ piC) (h : r = v - n * twoPiC) : reduce v = r := by
  have hf : ⌊(piC - v) / twoPiC⌋ = -n := by
    rw [Int.floor_eq_iff, le_div_iff₀ twoPiC_pos, div_lt_iff₀ twoPiC_pos]
    have h3 : twoPiC = 2 * piC := rfl
    push_cast
    constructor <;> nlinarith
  rw [reduce_eq, hf, h]; push_cast; ring

theorem reduce_id {v : ℚ} (h1 : -piC < v) (h2 : v ≤ piC) : reduce v = v :=
  reduce_unique (n := 0) h1 h2 (by simp)

theorem abs_reduce_le (v : ℚ) : |reduce v| ≤ piC := by
  obtain ⟨a, b⟩ := reduce_mem v; rw [abs_le]; constructor <;> linarith

theorem piF_lt_piC : piF < piC := by norm_num [piF, piC]

theorem piF_pos : 0 < piF := by norm_num [piF]

theorem piC_eq : piC = 0xC90FDAA22168C235 * 2 ^ (-62 : ℤ) := by rw [piC]; norm_num

theorem unit_pos : 0 < Exact.unit := by norm_num [Exact.unit, piC]

/-- `SCALE_C` and `UNIT` are inverse to each other (spec/00_scope.md R21). -/
theorem scaleC_mul_unit : scaleC * unit = 1 := by
  have := piC_pos.ne'
  unfold scaleC unit; field_simp

theorem unit_mul : 2 ^ 31 * Exact.unit = piC := by unfold Exact.unit; ring

theorem scaled (y : ℚ) : y * 2 ^ 31 / piC = y / Exact.unit := by
  have := piC_pos.ne'; unfold Exact.unit; field_simp

theorem roundingExponent_le_one {q : ℚ} (h0 : q ≠ 0) (h : |q| ≤ piC) : roundingExponent q ≤ 1 :=
  roundingExponent_le h0 (by norm_num) (lt_of_le_of_lt h (by norm_num [piC]))

/-- Rounding an angle of at most `PI_C` errs by at most 2^-52 and gives a finite word. -/
theorem RNE_near {q : ℚ} (h : |q| ≤ piC) : |val (RNE q) - q| ≤ 1 / 2 ^ 52 ∧ isFinite (RNE q) = true := by
  rcases eq_or_ne q 0 with rfl | h0
  · have : RNE 0 = 0#64 := by simp [RNE]
    rw [this]
    have : val 0#64 = 0 := by
      have h1 : (0#64 : Word).getLsbD 63 = false := by decide
      have h2 : ((0#64 : Word).extractLsb' 52 11).toNat = 0 := by decide
      have h3 : ((0#64 : Word).extractLsb' 0 52).toNat = 0 := by decide
      unfold val; rw [h1, h2, h3]; simp
    rw [this]; constructor
    · norm_num
    · decide
  · have hE := roundingExponent_le_one h0 h
    refine ⟨(val_RNE_near h0 (by omega)).trans ?_, (val_RNE h0 (by omega)).1⟩
    calc (2:ℚ) ^ (roundingExponent q - 53) ≤ 2 ^ (-52 : ℤ) := zpow_le_zpow_right₀ (by norm_num) (by omega)
      _ = 1 / 2 ^ 52 := by norm_num

/-- Rounding an angle of at most `PI_C` gives one of at most `PI_F`. -/
theorem abs_val_RNE_le {q : ℚ} (h : |q| ≤ piC) : |val (RNE q)| ≤ piF := by
  rcases eq_or_ne q 0 with rfl | h0
  · have := (RNE_near (q := 0) (by simpa using piC_pos.le)).1
    rw [sub_zero] at this
    exact this.trans (by norm_num [piF])
  · have hE := roundingExponent_le_one h0 h
    have hv := (val_RNE h0 (by omega)).2.2
    obtain ⟨n0, n1⟩ := roundedSignificand_bounds q
    have habs : |val (RNE q)| = roundedSignificand q * 2 ^ (roundingExponent q - 52) := by
      have : (0:ℚ) ≤ roundedSignificand q := by exact_mod_cast n0
      rw [hv]; split_ifs <;> rw [abs_mul, abs_mul, abs_of_nonneg this, abs_of_pos (a := (2:ℚ)^_) (by positivity)] <;> simp
    rw [habs]
    rcases lt_or_eq_of_le hE with hlt | heq
    · have : (roundedSignificand q : ℚ) ≤ 2 ^ 53 := by exact_mod_cast n1
      calc (roundedSignificand q : ℚ) * 2 ^ (roundingExponent q - 52) ≤ 2 ^ 53 * 2 ^ (-52 : ℤ) := by
            gcongr
            · norm_num
            · omega
        _ ≤ piF := by norm_num [piF]
    · rw [heq]
      have : roundedSignificand q ≤ 7074237752028440 := by
        rw [roundedSignificand, heq]
        have h1 : |q| / 2 ^ ((1:ℤ) - 52) ≤ piC * 2 ^ 51 := by
          rw [div_le_iff₀ (by positivity)]
          calc |q| ≤ piC := h
            _ = piC * 2 ^ 51 * 2 ^ ((1:ℤ)-52) := by norm_num; ring
        have h2 : rintEven (piC * 2 ^ 51) = 7074237752028440 := rintEven_eq_of_near (by rw [abs_lt]; norm_num [piC])
        exact (rintEven_mono h1).trans h2.le
      have : (roundedSignificand q : ℚ) ≤ 7074237752028440 := by exact_mod_cast this
      calc (roundedSignificand q : ℚ) * 2 ^ ((1:ℤ) - 52) ≤ 7074237752028440 * 2 ^ ((1:ℤ) - 52) := by gcongr
        _ ≤ piF := by norm_num [piF]

/-- Rounding an angle between 2^-61 and `PI_C` in magnitude gives a normal word. -/
theorem normal_of_ge {q : ℚ} (h : |q| ≤ piC) (h2 : 1 / 2 ^ 61 ≤ |q|) :
    1 ≤ Machine.exponentField (RNE q) ∧ Machine.exponentField (RNE q) ≤ 2046 := by
  have h0 : q ≠ 0 := by rintro rfl; norm_num at h2
  have hE := roundingExponent_le_one h0 h
  obtain ⟨hf, -, hv⟩ := val_RNE h0 (by omega : roundingExponent q < 1023)
  have hlt := exponent_lt_of_isFinite hf
  refine ⟨?_, by unfold Machine.exponentField; omega⟩
  by_contra hz
  have hz : ((RNE q).extractLsb' 52 11).toNat = 0 := by unfold Machine.exponentField at hz; omega
  have habs := abs_val (RNE q)
  rw [magnitude, if_pos hz] at habs
  have hn := roundedSignificand_normal h0 (.inr (le_trans (by
    calc (2:ℚ) ^ (-1022:ℤ) ≤ 2 ^ (-61 : ℤ) := zpow_le_zpow_right₀ (by norm_num) (by norm_num)
      _ = 1 / 2 ^ 61 := by norm_num) h2))
  have hn' : (2 ^ 52 : ℚ) ≤ roundedSignificand q := by exact_mod_cast hn
  have habs2 : |val (RNE q)| = roundedSignificand q * 2 ^ (roundingExponent q - 52) := by
    have : (0:ℚ) ≤ roundedSignificand q := by linarith
    rw [hv]; split_ifs <;> rw [abs_mul, abs_mul, abs_of_nonneg this, abs_of_pos (a := (2:ℚ)^_) (by positivity)] <;> simp
  have hm : (((RNE q).extractLsb' 0 52).toNat : ℚ) < 2 ^ 52 := by exact_mod_cast ((RNE q).extractLsb' 0 52).isLt
  have hge : (-1022 : ℤ) ≤ roundingExponent q := le_max_right _ _
  have : (2:ℚ) ^ 52 * 2 ^ (-1074 : ℤ) ≤ |val (RNE q)| := by
    rw [habs2]; gcongr
    · norm_num
    · omega
  rw [habs] at this
  have h3 : (0:ℚ) < 2 ^ (-1074 : ℤ) := by positivity
  exact absurd (le_of_mul_le_mul_right this h3) (not_le.2 hm)

/-- No binary64 value but zero is an integer times `PI_N` times a power of two: `PI_N` is odd and has 64 bits. -/
theorem val_ne_multiple {x : Word} {c z : ℤ} (h : val x = c * 0xC90FDAA22168C235 * 2 ^ z) : c = 0 := by
  have hm : ∃ (m : ℤ) (w : ℤ), |m| < 2 ^ 53 ∧ val x = m * 2 ^ w := by
    have hlt : ((x.extractLsb' 0 52).toNat : ℤ) < 2 ^ 52 := by exact_mod_cast (x.extractLsb' 0 52).isLt
    have h0 : (0:ℤ) ≤ ((x.extractLsb' 0 52).toNat : ℤ) := by positivity
    rw [val_eq_sign_mul]
    unfold magnitude
    generalize (x.extractLsb' 0 52).toNat = m at *
    by_cases hz : (x.extractLsb' 52 11).toNat = 0
    · rw [if_pos hz]
      cases x.getLsbD 63
      · exact ⟨m, -1074, by rw [abs_lt]; constructor <;> omega, by push_cast; simp⟩
      · exact ⟨-m, -1074, by rw [abs_lt]; constructor <;> omega, by push_cast; simp⟩
    · rw [if_neg hz]
      generalize (((x.extractLsb' 52 11).toNat : ℤ) - 1075) = w
      cases x.getLsbD 63
      · exact ⟨2 ^ 52 + m, w, by rw [abs_lt]; constructor <;> omega, by simp only [Bool.false_eq_true, if_false]; push_cast; ring⟩
      · exact ⟨-(2 ^ 52 + m), w, by rw [abs_lt]; constructor <;> omega, by simp only [if_true]; push_cast; ring⟩
  obtain ⟨m, w, hm, hv⟩ := hm
  rw [hv] at h
  have hdvd : (0xC90FDAA22168C235 : ℤ) ∣ m := by
    have h1 : (m : ℚ) * 2 ^ (w - z) = c * 0xC90FDAA22168C235 := by
      rw [zpow_sub₀ (by norm_num), ← mul_div_assoc, h]; field_simp
    rcases le_total 0 (w - z) with hh | hh
    · obtain ⟨k, hk⟩ := Int.eq_ofNat_of_zero_le hh
      rw [hk] at h1
      have h2 : m * 2 ^ k = c * 0xC90FDAA22168C235 := by
        have : ((m * 2 ^ k : ℤ) : ℚ) = ((c * 0xC90FDAA22168C235 : ℤ) : ℚ) := by push_cast; simpa using h1
        exact_mod_cast this
      have hd : (0xC90FDAA22168C235 : ℤ) ∣ m * 2 ^ k := ⟨c, by rw [h2]; ring⟩
      have hc : IsCoprime (0xC90FDAA22168C235 : ℤ) (2 ^ k) := IsCoprime.pow_right ⟨1, -7244019458077122842, by norm_num⟩
      exact hc.dvd_of_dvd_mul_right hd
    · obtain ⟨k, hk⟩ := Int.eq_ofNat_of_zero_le (by omega : 0 ≤ -(w - z))
      rw [show w - z = -(k : ℤ) by omega, zpow_neg, zpow_natCast, ← div_eq_mul_inv, div_eq_iff (by positivity)] at h1
      have h2 : m = c * 0xC90FDAA22168C235 * 2 ^ k := by exact_mod_cast h1
      exact ⟨c * 2 ^ k, by rw [h2]; ring⟩
  have hm0 : m = 0 := by
    obtain ⟨d, rfl⟩ := hdvd
    rw [abs_lt] at hm
    have : d = 0 := by omega
    rw [this]; rfl
  rw [hm0] at h
  have hz : (2 : ℚ) ^ z ≠ 0 := by positivity
  have : (c : ℚ) = 0 := by
    by_contra hc
    apply (mul_ne_zero (mul_ne_zero hc (by norm_num : (0xC90FDAA22168C235 : ℚ) ≠ 0)) hz)
    rw [← h]; simp
  exact_mod_cast this

/-- A value beyond `PI_F` is a multiple of 2^-51. -/
theorem far_grid {x : Word} (h : piF < |val x|) : ∃ j : ℤ, val x = j / 2 ^ 51 := by
  have hm : (((x.extractLsb' 0 52).toNat : ℕ) : ℚ) < 2 ^ 52 := by exact_mod_cast (x.extractLsb' 0 52).isLt
  have he : 1024 ≤ (x.extractLsb' 52 11).toNat := by
    by_contra hlt
    have : |val x| ≤ 2 := by
      rw [abs_val, magnitude]
      split_ifs
      · calc (((x.extractLsb' 0 52).toNat : ℕ) : ℚ) * 2 ^ (-1074 : ℤ) ≤ 2 ^ 52 * 2 ^ (-52 : ℤ) := by
              gcongr
              · norm_num
              · norm_num
          _ ≤ 2 := by norm_num
      · calc (2 ^ 52 + (((x.extractLsb' 0 52).toNat : ℕ) : ℚ)) * 2 ^ (((x.extractLsb' 52 11).toNat : ℤ) - 1075) ≤ 2 ^ 53 * 2 ^ (-52 : ℤ) := by
              gcongr
              · linarith
              · norm_num
              · omega
          _ ≤ 2 := by norm_num
    have : (3 : ℚ) < piF := by norm_num [piF]
    linarith
  have hz : (x.extractLsb' 52 11).toNat ≠ 0 := by omega
  rw [val_eq_sign_mul, magnitude, if_neg hz]
  obtain ⟨k, hk⟩ := Nat.exists_eq_add_of_le he
  rw [hk]
  have e : (2 : ℚ) ^ (((1024 + k : ℕ) : ℤ) - 1075) = 2 ^ k / 2 ^ 51 := by
    rw [show (((1024 + k : ℕ) : ℤ) - 1075) = (k : ℤ) - (51 : ℕ) by push_cast; ring, zpow_sub₀ (by norm_num), zpow_natCast, zpow_natCast]
  rw [e]
  refine ⟨(if x.getLsbD 63 = true then -1 else 1) * (2 ^ 52 + ((x.extractLsb' 0 52).toNat : ℤ)) * 2 ^ k, ?_⟩
  rw [Int.cast_mul, Int.cast_mul, Int.cast_add, Int.cast_pow, Int.cast_pow]
  push_cast
  ring

end Sys2Proof.Exact
end

