-- ==== Sys2Proof/Laws/Decode.lean ====
section
/-! SUPPORT. The decoder on bytes: little-endian bytes and back, the `op` field of an encoded command, and what the table's
decoder reads. -/

namespace Sys2Proof

/-- The number of the little-endian bytes of `k` is `k` (spec/20_memory.md R49). -/
theorem leNumber_leBytes (n k : Nat) (h : k < 256 ^ n) : leNumber (leBytes n k) = k := by
  induction n generalizing k with
  | zero => simp [leBytes, leNumber]; omega
  | succ n ih =>
    rw [leBytes, leNumber, ih _ (by rw [pow_succ] at h; omega)]
    rw [BitVec.toNat_ofNat]; omega

theorem leBytes_length (n k : Nat) : (leBytes n k).length = n := by
  induction n generalizing k with
  | zero => rfl
  | succ n ih => simp [leBytes, ih]

theorem leBytes_append (a b k : Nat) : leBytes (a + b) k = leBytes a k ++ leBytes b (k / 256 ^ a) := by
  induction a generalizing k with
  | zero => simp [leBytes]
  | succ a ih =>
    rw [show a + 1 + b = (a + b) + 1 by omega, leBytes, leBytes, ih, List.cons_append, Nat.div_div_eq_div_mul, pow_succ, mul_comm]

theorem leBytes_mod (a k : Nat) : leBytes a k = leBytes a (k % 256 ^ a) := by
  induction a generalizing k with
  | zero => rfl
  | succ a ih =>
    rw [leBytes, leBytes, ih]
    congr 1
    · congr 1; rw [pow_succ, mul_comm, Nat.mod_mul_right_mod]
    · congr 1
      rw [pow_succ, mul_comm, Nat.mod_mul_right_div_self, ]

/-- Two words laid out as bytes, and anything after them, decode as the two words (log entry 3). -/
theorem decode_bytes (c v : Word) (tail : List Byte) :
    decode (leBytes 8 c.toNat ++ leBytes 8 v.toNat ++ tail) = .ok (decodeWords c v, tail) := by
  unfold decode
  have l1 := leBytes_length 8 c.toNat
  have l2 := leBytes_length 8 v.toNat
  have e1 : (leBytes 8 c.toNat ++ leBytes 8 v.toNat ++ tail).take 8 = leBytes 8 c.toNat := by
    rw [List.append_assoc, List.take_left' l1]
  have e2 : ((leBytes 8 c.toNat ++ leBytes 8 v.toNat ++ tail).drop 8).take 8 = leBytes 8 v.toNat := by
    rw [List.append_assoc, List.drop_left' l1, List.take_left' l2]
  have e3 : (leBytes 8 c.toNat ++ leBytes 8 v.toNat ++ tail).drop 16 = tail := by
    rw [List.drop_left']; simp [l1, l2]
  rw [if_neg (by simp [l1, l2]), if_neg (by simp [l1, l2]; try omega), e1, e2, e3,
    leNumber_leBytes _ _ (lt_of_lt_of_le c.isLt (by norm_num)), leNumber_leBytes _ _ (lt_of_lt_of_le v.isLt (by norm_num)),
    BitVec.ofNat_toNat, BitVec.ofNat_toNat, BitVec.setWidth_eq, BitVec.setWidth_eq]

theorem opField_op (i : Instr) : opField i.commandWord = i.op := by cases i <;> rfl

theorem decodeOp_op (i : Instr) : decodeOp i.op i.operand = i := by cases i <;> rfl

theorem op_of_decodeOp (o : BitVec 2) (v : Word) : (decodeOp o v).op = o := by
  unfold decodeOp
  split_ifs with h1 h2 h3
  · exact h1.symm
  · exact h2.symm
  · exact h3.symm
  · revert h1 h2 h3; revert o; show ∀ o : BitVec 2, _ → _ → _ → 0b11#2 = o; decide

theorem operand_of_decodeOp (o : BitVec 2) (v : Word) : (decodeOp o v).operand = v := by
  unfold decodeOp
  split_ifs <;> rfl

/-- The instruction the table's decoder reads is the one `placeCommand` places. -/
theorem decodeTableWord_eq (nbits w : Nat) : decodeTableWord nbits w = some (decodeWords (Machine.tableCommandWord nbits w) (Machine.tableOperand nbits w)) := by
  unfold decodeTableWord Machine.tableCommandWord Machine.tableOperand
  generalize w % 2 ^ nbits = k
  have : leBytes 16 k = leBytes 8 (BitVec.ofNat 64 k).toNat ++ leBytes 8 (BitVec.ofNat 64 (k >>> 64)).toNat ++ [] := by
    rw [List.append_nil, leBytes_append 8 8, BitVec.toNat_ofNat, BitVec.toNat_ofNat, Nat.shiftRight_eq_div_pow]
    rw [leBytes_mod 8 k, leBytes_mod 8 (k / 256 ^ 8), show 256 ^ 8 = 2 ^ 64 by norm_num]
  rw [this, decode_bytes]

end Sys2Proof
end

