-- ==== Sys2Proof/Laws/State.lean ====
section
/-! SUPPORT. What each named update leaves in each field of the state: one lemma per field per update. -/

namespace Sys2Proof.Machine

@[simp] theorem State.deliver_op (s : State) (r : Word) : (s.deliver r).op = s.op := rfl
@[simp] theorem State.deliver_rrdy (s : State) (r : Word) : (s.deliver r).rrdy = true := rfl
@[simp] theorem State.deliver_nv (s : State) (r : Word) : (s.deliver r).nv = s.nv := rfl
@[simp] theorem State.deliver_rng (s : State) (r : Word) : (s.deliver r).rng = s.rng := rfl
@[simp] theorem State.deliver_ill (s : State) (r : Word) : (s.deliver r).ill = s.ill := rfl
@[simp] theorem State.deliver_unr (s : State) (r : Word) : (s.deliver r).unr = s.unr := rfl
@[simp] theorem State.deliver_rdata (s : State) (r : Word) : (s.deliver r).rdata = r := rfl
@[simp] theorem State.deliver_faultRecorded (s : State) (r : Word) : (s.deliver r).faultRecorded = s.faultRecorded := rfl
@[simp] theorem State.deliver_pending (s : State) (r : Word) : (s.deliver r).pending = s.pending := rfl
@[simp] theorem State.deliver_hostIndex (s : State) (r : Word) : (s.deliver r).hostIndex = s.hostIndex := rfl
@[simp] theorem State.deliver_responses (s : State) (r : Word) : (s.deliver r).responses = s.responses := rfl

@[simp] theorem State.setOp_op (s : State) (o : BitVec 2) : (s.setOp o).op = o := rfl
@[simp] theorem State.setOp_rrdy (s : State) (o : BitVec 2) : (s.setOp o).rrdy = s.rrdy := rfl
@[simp] theorem State.setOp_nv (s : State) (o : BitVec 2) : (s.setOp o).nv = s.nv := rfl
@[simp] theorem State.setOp_rng (s : State) (o : BitVec 2) : (s.setOp o).rng = s.rng := rfl
@[simp] theorem State.setOp_ill (s : State) (o : BitVec 2) : (s.setOp o).ill = s.ill := rfl
@[simp] theorem State.setOp_unr (s : State) (o : BitVec 2) : (s.setOp o).unr = s.unr := rfl
@[simp] theorem State.setOp_rdata (s : State) (o : BitVec 2) : (s.setOp o).rdata = s.rdata := rfl
@[simp] theorem State.setOp_faultRecorded (s : State) (o : BitVec 2) : (s.setOp o).faultRecorded = s.faultRecorded := rfl
@[simp] theorem State.setOp_pending (s : State) (o : BitVec 2) : (s.setOp o).pending = s.pending := rfl
@[simp] theorem State.setOp_hostIndex (s : State) (o : BitVec 2) : (s.setOp o).hostIndex = s.hostIndex := rfl
@[simp] theorem State.setOp_responses (s : State) (o : BitVec 2) : (s.setOp o).responses = s.responses := rfl

@[simp] theorem State.clearReady_op (s : State) : (s.clearReady).op = s.op := rfl
@[simp] theorem State.clearReady_rrdy (s : State) : (s.clearReady).rrdy = false := rfl
@[simp] theorem State.clearReady_nv (s : State) : (s.clearReady).nv = s.nv := rfl
@[simp] theorem State.clearReady_rng (s : State) : (s.clearReady).rng = s.rng := rfl
@[simp] theorem State.clearReady_ill (s : State) : (s.clearReady).ill = s.ill := rfl
@[simp] theorem State.clearReady_unr (s : State) : (s.clearReady).unr = s.unr := rfl
@[simp] theorem State.clearReady_rdata (s : State) : (s.clearReady).rdata = s.rdata := rfl
@[simp] theorem State.clearReady_faultRecorded (s : State) : (s.clearReady).faultRecorded = s.faultRecorded := rfl
@[simp] theorem State.clearReady_pending (s : State) : (s.clearReady).pending = s.pending := rfl
@[simp] theorem State.clearReady_hostIndex (s : State) : (s.clearReady).hostIndex = s.hostIndex := rfl
@[simp] theorem State.clearReady_responses (s : State) : (s.clearReady).responses = s.responses := rfl

@[simp] theorem State.unitReset_op (s : State) : (s.unitReset).op = 0b00#2 := rfl
@[simp] theorem State.unitReset_rrdy (s : State) : (s.unitReset).rrdy = false := rfl
@[simp] theorem State.unitReset_nv (s : State) : (s.unitReset).nv = false := rfl
@[simp] theorem State.unitReset_rng (s : State) : (s.unitReset).rng = false := rfl
@[simp] theorem State.unitReset_ill (s : State) : (s.unitReset).ill = false := rfl
@[simp] theorem State.unitReset_unr (s : State) : (s.unitReset).unr = false := rfl
@[simp] theorem State.unitReset_rdata (s : State) : (s.unitReset).rdata = 0x0000000000000000#64 := rfl
@[simp] theorem State.unitReset_faultRecorded (s : State) : (s.unitReset).faultRecorded = s.faultRecorded := rfl
@[simp] theorem State.unitReset_pending (s : State) : (s.unitReset).pending = s.pending := rfl
@[simp] theorem State.unitReset_hostIndex (s : State) : (s.unitReset).hostIndex = s.hostIndex := rfl
@[simp] theorem State.unitReset_responses (s : State) : (s.unitReset).responses = s.responses := rfl

@[simp] theorem State.respond_op (s : State) (m : Nat) (v : Word) : (s.respond m v).op = s.op := rfl
@[simp] theorem State.respond_rrdy (s : State) (m : Nat) (v : Word) : (s.respond m v).rrdy = s.rrdy := rfl
@[simp] theorem State.respond_nv (s : State) (m : Nat) (v : Word) : (s.respond m v).nv = s.nv := rfl
@[simp] theorem State.respond_rng (s : State) (m : Nat) (v : Word) : (s.respond m v).rng = s.rng := rfl
@[simp] theorem State.respond_ill (s : State) (m : Nat) (v : Word) : (s.respond m v).ill = s.ill := rfl
@[simp] theorem State.respond_unr (s : State) (m : Nat) (v : Word) : (s.respond m v).unr = s.unr := rfl
@[simp] theorem State.respond_rdata (s : State) (m : Nat) (v : Word) : (s.respond m v).rdata = s.rdata := rfl
@[simp] theorem State.respond_faultRecorded (s : State) (m : Nat) (v : Word) : (s.respond m v).faultRecorded = s.faultRecorded := rfl
@[simp] theorem State.respond_pending (s : State) (m : Nat) (v : Word) : (s.respond m v).pending = s.pending := rfl
@[simp] theorem State.respond_hostIndex (s : State) (m : Nat) (v : Word) : (s.respond m v).hostIndex = s.hostIndex := rfl
@[simp] theorem State.respond_responses (s : State) (m : Nat) (v : Word) : (s.respond m v).responses = { master := m, value := v } :: s.responses := rfl

@[simp] theorem State.takeStep_op (s : State) (rest : List HostStep) : (s.takeStep rest).op = s.op := rfl
@[simp] theorem State.takeStep_rrdy (s : State) (rest : List HostStep) : (s.takeStep rest).rrdy = s.rrdy := rfl
@[simp] theorem State.takeStep_nv (s : State) (rest : List HostStep) : (s.takeStep rest).nv = s.nv := rfl
@[simp] theorem State.takeStep_rng (s : State) (rest : List HostStep) : (s.takeStep rest).rng = s.rng := rfl
@[simp] theorem State.takeStep_ill (s : State) (rest : List HostStep) : (s.takeStep rest).ill = s.ill := rfl
@[simp] theorem State.takeStep_unr (s : State) (rest : List HostStep) : (s.takeStep rest).unr = s.unr := rfl
@[simp] theorem State.takeStep_rdata (s : State) (rest : List HostStep) : (s.takeStep rest).rdata = s.rdata := rfl
@[simp] theorem State.takeStep_faultRecorded (s : State) (rest : List HostStep) : (s.takeStep rest).faultRecorded = s.faultRecorded := rfl
@[simp] theorem State.takeStep_pending (s : State) (rest : List HostStep) : (s.takeStep rest).pending = rest := rfl
@[simp] theorem State.takeStep_hostIndex (s : State) (rest : List HostStep) : (s.takeStep rest).hostIndex = s.hostIndex + 1 := rfl
@[simp] theorem State.takeStep_responses (s : State) (rest : List HostStep) : (s.takeStep rest).responses = s.responses := rfl

@[simp] theorem State.clearFlags_op (s : State) (v : Word) : (s.clearFlags v).op = s.op := rfl
@[simp] theorem State.clearFlags_rrdy (s : State) (v : Word) : (s.clearFlags v).rrdy = s.rrdy := rfl
@[simp] theorem State.clearFlags_nv (s : State) (v : Word) : (s.clearFlags v).nv = (s.nv && !v.getLsbD 1) := rfl
@[simp] theorem State.clearFlags_rng (s : State) (v : Word) : (s.clearFlags v).rng = (s.rng && !v.getLsbD 2) := rfl
@[simp] theorem State.clearFlags_ill (s : State) (v : Word) : (s.clearFlags v).ill = (s.ill && !v.getLsbD 3) := rfl
@[simp] theorem State.clearFlags_unr (s : State) (v : Word) : (s.clearFlags v).unr = (s.unr && !v.getLsbD 4) := rfl
@[simp] theorem State.clearFlags_rdata (s : State) (v : Word) : (s.clearFlags v).rdata = s.rdata := rfl
@[simp] theorem State.clearFlags_faultRecorded (s : State) (v : Word) : (s.clearFlags v).faultRecorded = s.faultRecorded := rfl
@[simp] theorem State.clearFlags_pending (s : State) (v : Word) : (s.clearFlags v).pending = s.pending := rfl
@[simp] theorem State.clearFlags_hostIndex (s : State) (v : Word) : (s.clearFlags v).hostIndex = s.hostIndex := rfl
@[simp] theorem State.clearFlags_responses (s : State) (v : Word) : (s.clearFlags v).responses = s.responses := rfl

@[simp] theorem State.raise_op (s : State) (f : Flag) : (s.raise f).op = s.op := by cases f <;> rfl
@[simp] theorem State.raise_rrdy (s : State) (f : Flag) : (s.raise f).rrdy = s.rrdy := by cases f <;> rfl
@[simp] theorem State.raise_nv (s : State) (f : Flag) : (s.raise f).nv = (s.nv || decide (f = .nv)) := by
  cases f <;> simp [State.raise]
@[simp] theorem State.raise_rng (s : State) (f : Flag) : (s.raise f).rng = (s.rng || decide (f = .rng)) := by
  cases f <;> simp [State.raise]
@[simp] theorem State.raise_ill (s : State) (f : Flag) : (s.raise f).ill = (s.ill || decide (f = .ill)) := by
  cases f <;> simp [State.raise]
@[simp] theorem State.raise_unr (s : State) (f : Flag) : (s.raise f).unr = (s.unr || decide (f = .unr)) := by
  cases f <;> simp [State.raise]
@[simp] theorem State.raise_rdata (s : State) (f : Flag) : (s.raise f).rdata = s.rdata := by cases f <;> rfl
@[simp] theorem State.raise_faultRecorded (s : State) (f : Flag) : (s.raise f).faultRecorded = true := by cases f <;> rfl
@[simp] theorem State.raise_pending (s : State) (f : Flag) : (s.raise f).pending = s.pending := by cases f <;> rfl
@[simp] theorem State.raise_hostIndex (s : State) (f : Flag) : (s.raise f).hostIndex = s.hostIndex := by cases f <;> rfl
@[simp] theorem State.raise_responses (s : State) (f : Flag) : (s.raise f).responses = s.responses := by cases f <;> rfl

@[simp] theorem State.raiseAll_nil (s : State) : s.raiseAll [] = s := rfl
@[simp] theorem State.raiseAll_cons (s : State) (f : Flag) (fs : List Flag) :
    s.raiseAll (f :: fs) = (s.raise f).raiseAll fs := rfl

@[simp] theorem State.flag_nv (s : State) : s.flag .nv = s.nv := rfl
@[simp] theorem State.flag_rng (s : State) : s.flag .rng = s.rng := rfl
@[simp] theorem State.flag_ill (s : State) : s.flag .ill = s.ill := rfl
@[simp] theorem State.flag_unr (s : State) : s.flag .unr = s.unr := rfl

/-- What raising a list of flags does: exactly the flags of the list are set, the fault record is set if the list is not
empty, and nothing else changes (spec/60_exceptions.md R141). -/
theorem State.raiseAll_eq (s : State) (fs : List Flag) :
    s.raiseAll fs =
      { s with nv := s.nv || decide (Flag.nv ∈ fs), rng := s.rng || decide (Flag.rng ∈ fs),
               ill := s.ill || decide (Flag.ill ∈ fs), unr := s.unr || decide (Flag.unr ∈ fs),
               faultRecorded := s.faultRecorded || !fs.isEmpty } := by
  induction fs generalizing s with
  | nil => simp
  | cons f fs ih =>
    rw [State.raiseAll_cons, ih]
    cases f <;> simp [State.raise]

end Sys2Proof.Machine
end

