-- ==== Sys2Proof/Laws/Port.lean ====
section
/-! SUPPORT. What the port and the step can do, said once: which accesses are admitted, what each admitted access leads to,
and the cases of a step that answers a next state. -/

namespace Sys2Proof.Machine

theorem touchesWindow_iff (a : Access) : touchesWindow a = true ↔ TouchesWindow a := by
  unfold touchesWindow TouchesWindow
  simp only [Bool.and_eq_true, decide_eq_true_eq]
  constructor
  · rintro ⟨⟨h1, h2⟩, h3⟩
    rcases le_total 0 a.offset with h | h
    · exact ⟨0, h1, by omega, by omega⟩
    · exact ⟨(-a.offset).toNat, by omega, by omega, by omega⟩
  · rintro ⟨k, h1, h2, h3⟩
    exact ⟨⟨by omega, by omega⟩, by omega⟩

@[simp] theorem regAt_regOffset (r : Reg) : regAt (regOffset r) = some r := by cases r <;> rfl

theorem regAt_eq_some {o : Int} {r : Reg} : regAt o = some r ↔ o = regOffset r := by
  constructor
  · unfold regAt
    split_ifs with h1 h2 h3 h4 <;> intro h <;> cases h <;> assumption
  · rintro rfl; exact regAt_regOffset r

theorem regAt_isSome_iff (o : Int) : (∃ r, o = regOffset r) ↔ o = 0x00 ∨ o = 0x08 ∨ o = 0x10 ∨ o = 0x18 := by
  constructor
  · rintro ⟨r, rfl⟩; cases r <;> decide
  · rintro (h | h | h | h)
    exacts [⟨.ctrl, h⟩, ⟨.status, h⟩, ⟨.wdata, h⟩, ⟨.rdata, h⟩]

theorem wellFormed_iff (a : Access) :
    a.wellFormed = true ↔ a.form = .single ∧ a.bytes = 8 ∧ ∃ r, a.offset = regOffset r := by
  rw [regAt_isSome_iff]
  simp [Access.wellFormed, and_assoc, or_assoc]

/-- The port admits exactly the well-formed accesses (spec/20_memory.md R47). -/
theorem whyNotAdmitted_eq_none_iff (a : Access) : whyNotAdmitted a = none ↔ a.wellFormed = true := by
  rw [wellFormed_iff]
  unfold whyNotAdmitted
  cases h : a.form <;> simp
  have : (regAt a.offset = none → False) ↔ ∃ r, a.offset = regOffset r := by
    constructor
    · intro h'
      obtain ⟨r, hr⟩ := Option.ne_none_iff_exists'.1 h'
      exact ⟨r, regAt_eq_some.1 hr⟩
    · rintro ⟨r, hr⟩ h'
      rw [hr, regAt_regOffset] at h'
      cases h'
  rw [← this]
  split_ifs <;> simp_all

theorem wellFormed_touches {a : Access} (h : a.wellFormed = true) : TouchesWindow a := by
  obtain ⟨-, hb, r, hr⟩ := (wellFormed_iff a).1 h
  exact ⟨0, by omega, by rw [hr]; cases r <;> decide, by rw [hr]; cases r <;> decide⟩

@[simp] theorem regRead_wellFormed (m : Nat) (r : Reg) : (regRead m r).wellFormed = true :=
  (wellFormed_iff _).2 ⟨rfl, rfl, r, rfl⟩

@[simp] theorem regWrite_wellFormed (m : Nat) (r : Reg) (v : Word) : (regWrite m r v).wellFormed = true :=
  (wellFormed_iff _).2 ⟨rfl, rfl, r, rfl⟩

theorem performAccess_admitted {a : Access} {r : Reg} (s : State) (h : a.wellFormed = true)
    (hr : a.offset = regOffset r) : performAccess a s = performOnReg a r s := by
  unfold performAccess
  rw [if_pos ((touchesWindow_iff a).2 (wellFormed_touches h)), (whyNotAdmitted_eq_none_iff a).2 h, hr]
  simp

theorem performAccess_notAdmitted {a : Access} (s : State) (ht : TouchesWindow a) (h : a.wellFormed = false) :
    ∃ why, performAccess a s = .refused (.notAdmitted why) := by
  unfold performAccess
  rw [if_pos ((touchesWindow_iff a).2 ht)]
  cases hw : whyNotAdmitted a with
  | some why => exact ⟨why, rfl⟩
  | none => rw [whyNotAdmitted_eq_none_iff] at hw; simp [h] at hw

theorem performAccess_outside {a : Access} (s : State) (h : ¬ TouchesWindow a) : performAccess a s = .next s := by
  unfold performAccess
  rw [if_neg (fun h' => h ((touchesWindow_iff a).1 h'))]

theorem step_pending (s : State) (h : HostStep) (rest : List HostStep) (hp : s.pending = h :: rest) :
    step s = performHostStep h (s.takeStep rest) := by
  unfold step stepHost
  rw [hp]

theorem step_cons (s : State) (h : HostStep) (rest : List HostStep) :
    step { s with pending := h :: rest } =
      performHostStep h { s with pending := rest, hostIndex := s.hostIndex + 1 } := rfl

@[simp] theorem performHostStep_regRead (m : Nat) (r : Reg) (s : State) :
    performHostStep (.access (regRead m r)) s = .next ((performRead r s).2.respond m (performRead r s).1) :=
  performAccess_admitted s (regRead_wellFormed m r) rfl

@[simp] theorem performHostStep_regWrite (m : Nat) (r : Reg) (v : Word) (s : State) :
    performHostStep (.access (regWrite m r v)) s = performWrite r v s :=
  performAccess_admitted s (regWrite_wellFormed m r v) rfl

theorem opField_ctrlWord (s : State) : opField s.ctrlWord = s.op := by
  unfold opField State.ctrlWord
  apply BitVec.eq_of_getLsbD_eq
  intro i hi
  rw [BitVec.getLsbD_extractLsb', BitVec.getLsbD_setWidth]
  simp [hi, show i < 64 by omega]

/-- The command a `WDATA` write performs is the one `CTRL.OP` selects (spec/42_control.md R123). -/
@[simp] theorem fetchedInstr_eq (s : State) (v : Word) : fetchedInstr s v = decodeOp s.op v := by
  rw [fetchedInstr, decodeWords, opField_ctrlWord]

/-- The cases of a step that answers a next state. -/
theorem step_cases {s t : State} (h : step s = .next t) :
    (s.pending = [] ∧ t = s) ∨ ∃ rest,
      (s.pending = .reset :: rest ∧ t = (s.takeStep rest).unitReset) ∨
      (∃ a, s.pending = .resetDuring a :: rest ∧ t = cutShort a (s.takeStep rest)) ∨
      (∃ a, s.pending = .access a :: rest ∧ ¬ TouchesWindow a ∧ t = s.takeStep rest) ∨
      (∃ a r, s.pending = .access a :: rest ∧ a.wellFormed = true ∧ a.offset = regOffset r ∧ a.action = .read ∧
        t = (performRead r (s.takeStep rest)).2.respond a.master (performRead r (s.takeStep rest)).1) ∨
      (∃ a r v, s.pending = .access a :: rest ∧ a.wellFormed = true ∧ a.offset = regOffset r ∧ a.action = .write v ∧
        performWrite r v (s.takeStep rest) = .next t) := by
  cases hp : s.pending with
  | nil =>
    left
    unfold step stepHost at h
    rw [hp] at h
    cases h
    exact ⟨rfl, rfl⟩
  | cons hs rest =>
    right
    rw [step_pending s hs rest hp] at h
    refine ⟨rest, ?_⟩
    cases hs with
    | reset => cases h; exact .inl ⟨rfl, rfl⟩
    | resetDuring a => cases h; exact .inr (.inl ⟨a, rfl, rfl⟩)
    | access a =>
      change performAccess a _ = _ at h
      by_cases ht : TouchesWindow a
      · cases hw : a.wellFormed with
        | false =>
          obtain ⟨why, h'⟩ := performAccess_notAdmitted (s.takeStep rest) ht hw
          rw [h'] at h; cases h
        | true =>
          obtain ⟨-, -, r, hr⟩ := (wellFormed_iff a).1 hw
          rw [performAccess_admitted _ hw hr] at h
          unfold performOnReg at h
          cases ha : a.action with
          | read => rw [ha] at h; cases h; exact .inr (.inr (.inr (.inl ⟨a, r, rfl, hw, hr, ha, rfl⟩)))
          | write v => rw [ha] at h; exact .inr (.inr (.inr (.inr ⟨a, r, v, rfl, hw, hr, ha, h⟩)))
      · rw [performAccess_outside _ ht] at h
        cases h
        exact .inr (.inr (.inl ⟨a, rfl, ht, rfl⟩))

/-- What a reset that cuts an access short leaves: the reset state of the unit, with at most one more response. -/
theorem cutShort_eq (a : Access) (s : State) :
    cutShort a s = s.unitReset ∨ ∃ v, cutShort a s = s.unitReset.respond a.master v := by
  unfold cutShort
  split_ifs
  · exact .inr ⟨_, rfl⟩
  · exact .inl rfl

/-- Every instruction answers a next state. -/
theorem exec_next (i : Instr) (s : State) : ∃ t, exec i s = .next t := by
  cases i <;> exact ⟨_, rfl⟩

/-- The writes of the four registers. -/
theorem performWrite_cases {r : Reg} {v : Word} {s t : State} (h : performWrite r v s = .next t) :
    (r = .ctrl ∧ t = s.setOp (opField v)) ∨ (r = .status ∧ t = s.clearFlags v) ∨
      (r = .wdata ∧ exec (decodeOp s.op v) s = .next t) ∨ (r = .rdata ∧ t = s) := by
  cases r with
  | ctrl => cases h; exact .inl ⟨rfl, rfl⟩
  | status => cases h; exact .inr (.inl ⟨rfl, rfl⟩)
  | wdata =>
    right; right; left
    rw [← fetchedInstr_eq]
    exact ⟨rfl, h⟩
  | rdata => cases h; exact .inr (.inr (.inr ⟨rfl, rfl⟩))

/-- A step whose next host step is a write of a register. -/
theorem step_regWrite {s : State} {m : Nat} {r : Reg} {v : Word} {rest : List HostStep}
    (hp : s.pending = .access (regWrite m r v) :: rest) : step s = performWrite r v (s.takeStep rest) := by
  rw [step_pending s _ rest hp, performHostStep_regWrite]

/-- A step whose next host step is a write of `WDATA` runs the command that `CTRL.OP` selects
(spec/42_control.md R123). -/
theorem step_wdata {s : State} {m : Nat} {v : Word} {rest : List HostStep}
    (hp : s.pending = .access (regWrite m .wdata v) :: rest) : step s = exec (decodeOp s.op v) (s.takeStep rest) := by
  rw [step_regWrite hp]
  show exec (fetchedInstr _ _) _ = _
  rw [fetchedInstr_eq]; rfl

/-- A step whose next host step is a read of a register. -/
theorem step_regRead {s : State} {m : Nat} {r : Reg} {rest : List HostStep}
    (hp : s.pending = .access (regRead m r) :: rest) : step s = .next ((performRead r (s.takeStep rest)).2.respond m (performRead r (s.takeStep rest)).1) := by
  rw [step_pending s _ rest hp, performHostStep_regRead]

theorem performWrite_total (r : Reg) (v : Word) (s : State) : ∃ t, performWrite r v s = .next t := by
  cases r
  · exact ⟨_, rfl⟩
  · exact ⟨_, rfl⟩
  · exact exec_next _ _
  · exact ⟨_, rfl⟩

/-- Every admitted access answers a next state. -/
theorem performAccess_total (a : Access) (s : State) (h : a.wellFormed = true) : ∃ t, performAccess a s = .next t := by
  obtain ⟨-, -, r, hr⟩ := (wellFormed_iff a).1 h
  rw [performAccess_admitted s h hr]
  unfold performOnReg
  cases a.action
  · exact ⟨_, rfl⟩
  · exact performWrite_total _ _ _

end Sys2Proof.Machine
end

