-- ==== Sys2Proof/Laws/Effects.lean ====
section
/-! SUPPORT. Everything an instruction and everything a step can do, said once. -/

namespace Sys2Proof.Machine

/-- What an instruction does: it may deliver a result word, it raises a list of flags of at most one entry, and it leaves
everything else alone. -/
theorem exec_effect {i : Instr} {s t : State} (h : exec i s = .next t) :
    ∃ (r : Option Word) (fs : List Flag), t =
      { s with rdata := r.getD s.rdata, rrdy := s.rrdy || r.isSome,
                 nv := s.nv || decide (Flag.nv ∈ fs), rng := s.rng || decide (Flag.rng ∈ fs),
                 ill := s.ill || decide (Flag.ill ∈ fs), unr := s.unr || decide (Flag.unr ∈ fs),
                 faultRecorded := s.faultRecorded || !fs.isEmpty } ∧
      ((i.op = 0b00#2 ∧ r = none ∧ fs = [.ill]) ∨ (i.op ≠ 0b00#2 ∧ r.isSome ∧ (fs = [] ∨ fs = [.nv] ∨ fs = [.rng]))) := by
  cases i with
  | none v =>
    cases h
    exact ⟨none, [.ill], by simp [State.raise], .inl ⟨rfl, rfl, rfl⟩⟩
  | encode x =>
    cases h
    refine ⟨some (sampleResult (encodeAngle x).1), encodeFlags x, ?_, .inr ⟨by simp [Instr.op], rfl, ?_⟩⟩
    · rw [State.raiseAll_eq]; simp [State.deliver, encodeAngle]; refine ⟨rfl, rfl, rfl, rfl⟩
    · unfold encodeFlags; split_ifs <;> simp
  | decode v =>
    cases h
    exact ⟨some (decodeSample (sampleOperand v)), [], by simp [State.deliver], .inr ⟨by simp [Instr.op], rfl, .inl rfl⟩⟩
  | normalize x =>
    cases h
    refine ⟨some (normalizeAngle x).1, normalizeFlags x, ?_, .inr ⟨by simp [Instr.op], rfl, ?_⟩⟩
    · rw [State.raiseAll_eq]; simp [State.deliver, normalizeAngle]; refine ⟨rfl, rfl, rfl, rfl⟩
    · unfold normalizeFlags; split_ifs <;> simp

theorem nextIs_of {s : State} {a : Access} {rest : List HostStep} {r : Reg} {act : Action}
    (hp : s.pending = .access a :: rest) (hw : a.wellFormed = true) (ho : a.offset = regOffset r) (ha : a.action = act) :
    NextIs s r act := ⟨a, rest, hp, hw, ho, ha⟩

/-- What a step that answers a next state does, by what the host did next. -/
theorem step_effect {s t : State} (h : step s = .next t) :
    (s.pending = [] ∧ t = s) ∨ (NextIsReset s ∧ t.op = 0b00#2 ∧ t.rdata = 0#64 ∧ t.rrdy = false ∧ t.faultRecorded = s.faultRecorded ∧ ∀ f, t.flag f = false) ∨
    (∃ rest, t = s.takeStep rest ∧ ∃ a, s.pending = .access a :: rest ∧ ¬ TouchesWindow a) ∨
    (∃ rest m v u, t = u ∧ (u = (s.takeStep rest).respond m v) ∧ ∃ r, r ≠ .rdata ∧ NextIs s r .read) ∨
    (∃ rest m v, t = ((if s.rrdy then s.takeStep rest else (s.takeStep rest).raise .unr).clearReady).respond m v ∧ NextIs s .rdata .read) ∨
    (∃ rest v, NextIs s .ctrl (.write v) ∧ t = (s.takeStep rest).setOp (opField v)) ∨
    (∃ rest v, NextIs s .status (.write v) ∧ t = (s.takeStep rest).clearFlags v) ∨
    (∃ rest v, NextIs s .wdata (.write v) ∧ exec (decodeOp s.op v) (s.takeStep rest) = .next t) ∨
    (∃ rest v, NextIs s .rdata (.write v) ∧ t = s.takeStep rest) := by
  rcases step_cases h with h | ⟨rest, ⟨hp, h⟩ | ⟨a, hp, h⟩ | ⟨a, hp, ht, h⟩ | ⟨a, r, hp, hw, ho, ha, h⟩ | ⟨a, r, v, hp, hw, ho, ha, h⟩⟩
  · exact .inl h
  · refine .inr (.inl ⟨⟨_, rest, hp, .inl rfl⟩, ?_⟩)
    subst h; exact ⟨rfl, rfl, rfl, rfl, fun f => by cases f <;> rfl⟩
  · refine .inr (.inl ⟨⟨_, rest, hp, .inr ⟨a, rfl⟩⟩, ?_⟩)
    rcases cutShort_eq a (s.takeStep rest) with e | ⟨v, e⟩ <;> rw [e] at h <;> subst h <;>
      exact ⟨rfl, rfl, rfl, rfl, fun f => by cases f <;> rfl⟩
  · exact .inr (.inr (.inl ⟨rest, h, a, hp, ht⟩))
  · have hn := nextIs_of hp hw ho ha
    by_cases hr : r = .rdata
    · subst hr
      exact .inr (.inr (.inr (.inr (.inl ⟨rest, a.master, s.rdata, h, hn⟩))))
    · refine .inr (.inr (.inr (.inl ⟨rest, a.master, (performRead r (s.takeStep rest)).1, _, h, ?_, r, hr, hn⟩)))
      cases r <;> first | rfl | exact absurd rfl hr
  · have hn := nextIs_of hp hw ho ha
    rcases performWrite_cases h with ⟨rfl, h'⟩ | ⟨rfl, h'⟩ | ⟨rfl, h'⟩ | ⟨rfl, h'⟩
    · exact .inr (.inr (.inr (.inr (.inr (.inl ⟨rest, v, hn, h'⟩)))))
    · exact .inr (.inr (.inr (.inr (.inr (.inr (.inl ⟨rest, v, hn, h'⟩))))))
    · exact .inr (.inr (.inr (.inr (.inr (.inr (.inr (.inl ⟨rest, v, hn, h'⟩)))))))
    · exact .inr (.inr (.inr (.inr (.inr (.inr (.inr (.inr ⟨rest, v, hn, h'⟩)))))))

theorem nextIs_write_unique {s : State} {r r' : Reg} {v v' : Word} (h : NextIs s r (.write v)) (h' : NextIs s r' (.write v')) : r = r' ∧ v = v' := by
  obtain ⟨a, rest, h1, -, h2, h3⟩ := h
  obtain ⟨b, rest', h1', -, h2', h3'⟩ := h'
  rw [h1] at h1'; cases h1'
  rw [h2] at h2'; rw [h3] at h3'; cases h3'
  exact ⟨by cases r <;> cases r' <;> first | rfl | exact absurd h2' (by decide), rfl⟩

theorem nextIs_read_unique {s : State} {r r' : Reg} (h : NextIs s r .read) (h' : NextIs s r' .read) : r = r' := by
  obtain ⟨a, rest, h1, -, h2, h3⟩ := h
  obtain ⟨b, rest', h1', -, h2', h3'⟩ := h'
  rw [h1] at h1'; cases h1'
  rw [h2] at h2'
  cases r <;> cases r' <;> first | rfl | exact absurd h2' (by decide)

theorem nextIs_write_not_read {s : State} {r r' : Reg} {v : Word} (h : NextIs s r (.write v)) (h' : NextIs s r' .read) : False := by
  obtain ⟨a, rest, h1, -, h2, h3⟩ := h
  obtain ⟨b, rest', h1', -, h2', h3'⟩ := h'
  rw [h1] at h1'; cases h1'
  rw [h3] at h3'; cases h3'

theorem nextIsReset_not_nextIs {s : State} {r : Reg} {a : Action} (h : NextIsReset s) (h' : NextIs s r a) : False := by
  obtain ⟨a, rest, h1, h2⟩ := h
  obtain ⟨b, rest', h1', -, h2', h3'⟩ := h'
  rw [h1] at h1'; cases h1'
  rcases h2 with h2 | ⟨_, h2⟩ <;> cases h2

theorem empty_not_nextIs {s : State} {r : Reg} {a : Action} (h : s.pending = []) (h' : NextIs s r a) : False := by
  obtain ⟨b, rest', h1', -⟩ := h'
  rw [h] at h1'; cases h1'

theorem outside_not_nextIs {s : State} {r : Reg} {a : Access} {act : Action} {rest : List HostStep} (h : s.pending = .access a :: rest) (ht : ¬ TouchesWindow a) (h' : NextIs s r act) : False := by
  obtain ⟨b, rest', h1', hw, -⟩ := h'
  rw [h] at h1'; cases h1'
  exact ht (wellFormed_touches hw)

theorem run_one {s t : State} (h : step s = .next t) : Sys2Proof.core.run 1 s = .next t := by
  have : Sys2Proof.core.step s = .next t := h
  simp [Host.Core.run, this]

/-- A run of `n + k` steps is a run of `n` and then one of `k`. -/
theorem run_add {n : Nat} (k : Nat) {s t : State} (h : Sys2Proof.core.run n s = .next t) :
    Sys2Proof.core.run (n + k) s = Sys2Proof.core.run k t := by
  induction n generalizing s with
  | zero => cases h; simp
  | succ n ih =>
    rw [show n + 1 + k = (n + k) + 1 by omega]
    simp only [Host.Core.run] at h ⊢
    cases hs : Sys2Proof.core.step s with
    | next u => rw [hs] at h; exact ih h
    | fault r => rw [hs] at h; cases h
    | refused r => rw [hs] at h; cases h

/-- An admitted access that is no write of `WDATA` completes and keeps `RDATA` (spec/20_memory.md R54). -/
theorem step_keeps_result {s : State} {a : Access} {rest : List HostStep} (hw : a.wellFormed = true)
    (hn : ∀ u, ¬ (a.offset = 0x10 ∧ a.action = .write u)) (hp : s.pending = .access a :: rest) :
    ∃ t, step s = .next t ∧ t.rdata = s.rdata ∧ t.pending = rest ∧ t.hostIndex = s.hostIndex + 1 := by
  obtain ⟨-, -, r, hr⟩ := (wellFormed_iff a).1 hw
  rw [step_pending s _ rest hp]
  show ∃ t, performAccess a _ = _ ∧ _
  rw [performAccess_admitted _ hw hr]
  unfold performOnReg
  cases ha : a.action with
  | read =>
    refine ⟨_, rfl, ?_⟩
    cases r
    · exact ⟨rfl, rfl, rfl⟩
    · exact ⟨rfl, rfl, rfl⟩
    · exact ⟨rfl, rfl, rfl⟩
    · simp only [performRead, readRdata]; split_ifs <;> exact ⟨rfl, rfl, rfl⟩
  | write v =>
    cases r
    · exact ⟨_, rfl, rfl, rfl, rfl⟩
    · exact ⟨_, rfl, rfl, rfl, rfl⟩
    · exact absurd ⟨hr, ha⟩ (hn v)
    · exact ⟨_, rfl, rfl, rfl, rfl⟩

end Sys2Proof.Machine
end

