-- ==== Sys2Proof/Laws/PerInstr.lean ====
section
/-! SUPPORT. Statements about every instruction as syntax, one lemma per constructor. -/

namespace Sys2Proof.Laws.EncodingMatchesTable

/-- The match value opcode_table.json gives an instruction under the mask 0x3 (spec/30_encoding.md R64). -/
def tableMatch : Instr → BitVec 64
  | .none _ => 0x0000000000000000#64
  | .encode _ => 0x0000000000000001#64
  | .decode _ => 0x0000000000000002#64
  | .normalize _ => 0x0000000000000003#64

/-- The encoding of an instruction is its row of opcode_table.json: under the mask 0x3 its command word is the row's match
value, its reserved bits are zero, and the operand word is carried whole (spec/30_encoding.md R61 to R65). -/
def Statement (i : Instr) : Prop :=
  (Sys2Proof.encode i).1 &&& 0x3#64 = tableMatch i ∧ commandWordWellFormed (Sys2Proof.encode i).1 = true ∧
    (Sys2Proof.encode i).2 = i.operand ∧ i.wellFormed = true

theorem none (v : Word) : Statement (.none v) :=
  ⟨by simp [Sys2Proof.encode, Instr.commandWord, Instr.op, tableMatch],
    by simp [Sys2Proof.encode, Instr.commandWord, Instr.op, commandWordWellFormed], rfl, rfl⟩

theorem encode (x : Word) : Statement (.encode x) :=
  ⟨by simp [Sys2Proof.encode, Instr.commandWord, Instr.op, tableMatch],
    by simp [Sys2Proof.encode, Instr.commandWord, Instr.op, commandWordWellFormed], rfl, rfl⟩

theorem decode (v : Word) : Statement (.decode v) :=
  ⟨by simp [Sys2Proof.encode, Instr.commandWord, Instr.op, tableMatch],
    by simp [Sys2Proof.encode, Instr.commandWord, Instr.op, commandWordWellFormed], rfl, rfl⟩

theorem normalize (x : Word) : Statement (.normalize x) :=
  ⟨by simp [Sys2Proof.encode, Instr.commandWord, Instr.op, tableMatch],
    by simp [Sys2Proof.encode, Instr.commandWord, Instr.op, commandWordWellFormed], rfl, rfl⟩

end Sys2Proof.Laws.EncodingMatchesTable
end

