-- ==== Sys2Proof/Tests/Slice0.lean ====
section
/-! SUPPORT. Tests of one step each, with results taken from spec/95_test_vectors.md, the refusals of ill-formed terms, and
a witness for the hypotheses of every statement that has some. -/

namespace Sys2Proof.Tests

open Sys2Proof.Machine

/-- A small state: `CTRL.OP`, the five bits of `STATUS` and `RDATA` as given, one host step pending. -/
def unit (op : BitVec 2) (status : BitVec 5) (rdata : Word) (h : HostStep) : State :=
  { State.reset with
    op := op, rrdy := status.getLsbD 0, nv := status.getLsbD 1, rng := status.getLsbD 2, ill := status.getLsbD 3,
    unr := status.getLsbD 4, rdata := rdata, pending := [h] }

/-- What one step from a state leaves: `CTRL.OP`, `STATUS`, `RDATA` and the values returned. -/
def after (s : State) : Option (BitVec 2 × Word × Word × List Word) :=
  match step s with
  | .next t => some (t.op, t.statusWord, t.rdata, t.responses.map Response.value)
  | .fault _ => none
  | .refused _ => none

/-- The reason a step from a state is refused, if it is. -/
def refusal (s : State) : Option Refusal :=
  match step s with
  | .next _ => none
  | .fault _ => none
  | .refused r => some r

/-- An access of another shape than the admitted one. -/
def oddAccess (offset : Int) (bytes : Nat) (form : AccessForm) : Access :=
  { master := 0, offset := offset, bytes := bytes, form := form, action := .read }

/-! Well-formedness. -/

theorem test_wellFormed_admits_rdata : (regRead 0 .rdata).wellFormed = true := by decide

theorem test_wellFormed_refuses_form : (oddAccess 0x18 8 .burst).wellFormed = false := by decide

theorem test_wellFormed_refuses_width : (oddAccess 0x18 4 .single).wellFormed = false := by decide

theorem test_wellFormed_refuses_offset : (oddAccess 0x04 8 .single).wellFormed = false := by decide

theorem test_wellFormed_refuses_reserved_bits : commandWordWellFormed 0x0000000000000005#64 = false := by decide

theorem test_wellFormed_refuses_clrf_mask : clrfMaskWellFormed 0x0000000000000003#64 = false := by decide

theorem test_wellFormed_refuses_unknown_master :
    ({ regRead 0 .rdata with master := Config.masterCount } : Access).fromKnownMaster = false := by
  simp [Access.fromKnownMaster]

/-- Every operand is legal (spec/30_encoding.md R63): the check of a command refuses none. -/
theorem test_wellFormed_admits_nan : (Instr.encode 0x7FF8000000000000#64).wellFormed = true := by decide

/-! Decoding: words written out bit by bit from spec/30_encoding.md R61, R62 and R64. -/

theorem test_decode_none :
    decodeWords 0b0000000000000000000000000000000000000000000000000000000000000000#64 0x5#64 = .none 0x5#64 := by decide

theorem test_decode_encode :
    decodeWords 0b0000000000000000000000000000000000000000000000000000000000000001#64
      0b0011111111110000000000000000000000000000000000000000000000000000#64 = .encode 0x3FF0000000000000#64 := by decide

theorem test_decode_decode :
    decodeWords 0b0000000000000000000000000000000000000000000000000000000000000010#64
      0b0000000000000000000000000000000001000000000000000000000000000000#64 = .decode 0x40000000#64 := by decide

theorem test_decode_normalize :
    decodeWords 0b0000000000000000000000000000000000000000000000000000000000000011#64
      0b0100000000010000000000000000000000000000000000000000000000000000#64 = .normalize 0x4010000000000000#64 := by decide

/-- Reserved bits are ignored (R65; step 14 of program P3: all ones but bit 0 selects `DECODE`). -/
theorem test_decode_ignores_reserved_bits : decodeWords 0xFFFFFFFFFFFFFFFE#64 0x1#64 = .decode 0x1#64 := by decide

theorem test_decode_rejects_no_command_word : decode [1, 0, 0, 0, 0, 0, 0] = .error .truncatedCommandWord := by decide

theorem test_decode_rejects_no_operand_word :
    decode [1, 0, 0, 0, 0, 0, 0, 0, 0, 0, 0, 0, 0, 0, 0xF0] = .error .truncatedOperandWord := by decide

theorem test_decode_table_row : decodeTableWord 64 3 = some (.normalize 0x0#64) := by decide

/-- The byte view of the window (spec/20_memory.md R49): the bytes of `PI_F`, `18 2D 44 54 FB 21 09 40`. -/
theorem test_window_bytes :
    ([24, 25, 30, 31, 32].map (unit 1 0 0x400921FB54442D18#64 .reset).windowByte) =
      [some 0x18, some 0x2D, some 0x09, some 0x40, none] := by decide

/-! One step of each command (spec/95_test_vectors.md sections 2.1 to 2.4). -/

theorem test_none_raises_ill :
    after (unit 0b00 0x01 0x5 (wr 0 .wdata 0x0)) = some (0b00, 0x09, 0x5, []) := by decide

set_option maxRecDepth 20000 in
theorem test_encode_saturates :
    after (unit 0b01 0x00 0x0 (wr 0 .wdata 0x400921FB542B0B1D)) = some (0b01, 0x01, 0x7FFFFFFF, []) := by decide

set_option maxRecDepth 20000 in
/-- Step 9 of program P3: `ENCODE` of 4.0 beside three flags already set. -/
theorem test_encode_out_of_range :
    after (unit 0b01 0x1A 0x0 (wr 0 .wdata 0x4010000000000000)) = some (0b01, 0x1F, 0xFFFFFFFFA2F9836E, []) := by decide

/-- A NaN is a legal `DECODE` operand: its low half is sample 1 (step 16 of program P3). -/
theorem test_decode_of_nan_bits :
    after (unit 0b10 0x00 0x0 (wr 0 .wdata 0x7FF8000000000001)) = some (0b10, 0x01, 0x3E1921FB54442D18, []) := by decide

/-- `INT32_MIN` with a high half that is ignored (step 8 of program P2). -/
theorem test_decode_of_smallest :
    after (unit 0b10 0x00 0x0 (wr 0 .wdata 0xDEADBEEF80000000)) = some (0b10, 0x01, 0xC00921FB54442D18, []) := by decide

set_option maxRecDepth 20000 in
/-- 1e22 (section 2.3). -/
theorem test_normalize_far :
    after (unit 0b11 0x00 0x0 (wr 0 .wdata 0x4480F0CF064DD592)) = some (0b11, 0x01, 0x4005490415A200AA, []) := by decide

/-- A signalling NaN gives the quiet NaN and `NV` (section 2.3). -/
theorem test_normalize_nan :
    after (unit 0b11 0x00 0x0 (wr 0 .wdata 0x7FF0000000000001)) = some (0b11, 0x03, 0x7FF8000000000000, []) := by decide

/-! One access of each other kind (section 2.4; programs P6). -/

theorem test_write_ctrl :
    after (unit 0b01 0x1F 0x7 (wr 0 .ctrl 0x2)) = some (0b10, 0x1F, 0x7, []) := by decide

theorem test_read_ctrl : after (unit 0b10 0x00 0x0 (rd 0 .ctrl)) = some (0b10, 0x00, 0x0, [0x2]) := by decide

theorem test_read_rdata :
    after (unit 0b01 0x01 0x28BE60DC (rd 0 .rdata)) = some (0b01, 0x00, 0x28BE60DC, [0x28BE60DC]) := by decide

theorem test_read_rdata_again :
    after (unit 0b01 0x00 0x28BE60DC (rd 0 .rdata)) = some (0b01, 0x10, 0x28BE60DC, [0x28BE60DC]) := by decide

theorem test_read_status : after (unit 0b01 0x1F 0x0 (rd 0 .status)) = some (0b01, 0x1F, 0x0, [0x1F]) := by decide

theorem test_write_status : after (unit 0b01 0x1E 0x0 (wr 0 .status 0x4)) = some (0b01, 0x1A, 0x0, []) := by decide

theorem test_write_status_keeps_rrdy :
    after (unit 0b01 0x1F 0x0 (wr 0 .status 0xFFFFFFFFFFFFFFFF)) = some (0b01, 0x01, 0x0, []) := by decide

theorem test_read_wdata : after (unit 0b01 0x01 0x9 (rd 0 .wdata)) = some (0b01, 0x01, 0x9, [0x0]) := by decide

theorem test_write_rdata :
    after (unit 0b01 0x01 0x9 (wr 0 .rdata 0xFFFFFFFFFFFFFFFF)) = some (0b01, 0x01, 0x9, []) := by decide

theorem test_reset_step : after (unit 0b11 0x03 0x7FF8000000000000 .reset) = some (0b00, 0x00, 0x0, []) := by decide

/-- A reset instead of completing a write of `STATUS` (R160): the write has no effect, the reset has. -/
theorem test_reset_during_write :
    after (unit 0b11 0x03 0x7 (.resetDuring (regWrite 0 .ctrl 0x1))) = some (0b00, 0x00, 0x0, []) := by decide

theorem test_not_admitted_burst :
    refusal (unit 0b01 0x01 0x9 (.access (oddAccess 0x00 32 .burst))) = some (.notAdmitted .burst) := by decide

theorem test_not_admitted_width :
    refusal (unit 0b01 0x01 0x9 (.access (oddAccess 0x18 4 .single))) = some (.notAdmitted .width) := by decide

theorem test_not_admitted_misaligned :
    refusal (unit 0b01 0x01 0x9 (.access (oddAccess 0x04 8 .single))) = some (.notAdmitted .misaligned) := by decide

/-- The table's words placed in the reset state run as the first command after reset (log entry 4): `NONE` raises `ILL`,
the others deliver the result of the operand 0 (R88, R93, R103). -/
theorem test_placed_rows :
    after (State.reset.withFetchWord 64 0) = some (0b00, 0x08, 0x0, []) ∧
    after (State.reset.withFetchWord 64 1) = some (0b01, 0x01, 0x0, []) ∧
    after (State.reset.withFetchWord 64 2) = some (0b10, 0x01, 0x0, []) ∧
    after (State.reset.withFetchWord 64 3) = some (0b11, 0x01, 0x0, []) := by
  refine ⟨?_, ?_, ?_, ?_⟩ <;> decide

/-! Witnesses: states and operands that meet the hypotheses of the statements named. -/

theorem witness_ResetWinsOverAnAccess :
    (HostStep.reset = .reset ∨ HostStep.reset = .resetDuring (regRead 0 .rdata)) ∧
    (HostStep.resetDuring (regRead 0 .rdata) = .reset ∨
      HostStep.resetDuring (regRead 0 .rdata) = .resetDuring (regRead 0 .rdata)) := by decide

theorem witness_StepRunsTheDecodedCommand :
    (∀ op ∈ [0b00#2, 0b01#2, 0b10#2, 0b11#2],
      decode (leBytes 8 (unit op 0 0 .reset).ctrlWord.toNat ++ leBytes 8 (0x3FF0000000000000#64 : Word).toNat ++ [7]) =
        .ok (decodeOp op 0x3FF0000000000000#64, [7])) := by decide

theorem witness_PlacedCommandRunsNext :
    decodeTableWord 64 0 = some (.none 0#64) ∧ decodeTableWord 128 (2 ^ 64 + 1) = some (.encode 1#64) ∧
    decodeTableWord 64 2 = some (.decode 0#64) ∧ decodeTableWord 64 (2 ^ 64 - 1) = some (.normalize 0#64) := by decide

/-- Both clauses, at the edges of the window: the last byte of an access on the first byte of the window and the first on
its last; an admitted access at the first and at the last register. -/
theorem witness_NotAdmittedAccessIsRefused :
    (∀ a ∈ [oddAccess (-7) 8 .single, oddAccess 31 1 .single, oddAccess 0x00 8 .fetch, oddAccess 0x18 16 .single],
      TouchesWindow a ∧ ¬ (a.form = .single ∧ a.bytes = 8 ∧
        (a.offset = 0x00 ∨ a.offset = 0x08 ∨ a.offset = 0x10 ∨ a.offset = 0x18))) ∧
    (∀ a ∈ [oddAccess 0x00 8 .single, oddAccess 0x18 8 .single],
      TouchesWindow a ∧ (a.form = .single ∧ a.bytes = 8 ∧
        (a.offset = 0x00 ∨ a.offset = 0x08 ∨ a.offset = 0x10 ∨ a.offset = 0x18))) := by
  simp only [← touchesWindow_iff]; decide

/-- The bytes just below the window, just above it, and no byte at all. -/
theorem witness_AccessOutsideTheWindowLeavesTheUnit :
    ¬ TouchesWindow (oddAccess (-8) 8 .single) ∧ ¬ TouchesWindow (oddAccess 32 1 .single) ∧
    ¬ TouchesWindow (oddAccess 0x10 0 .single) := by
  simp only [← touchesWindow_iff]; decide

theorem witness_BusAddressReachesRegister :
    ∀ p ∈ [(Reg.ctrl, 0x00), (Reg.status, 0x08), (Reg.wdata, 0x10), (Reg.rdata, 0x18)],
      p ∈ [(Reg.ctrl, 0x00), (Reg.status, 0x08), (Reg.wdata, 0x10), (Reg.rdata, 0x18)] ∧ regOffset p.1 = (p.2 : Nat) := by
  decide

/-- The first and the last byte of the window, the first byte beyond it, and a 4-byte access inside it. -/
theorem witness_WindowBytesAreLittleEndian :
    ((Reg.ctrl, 0x00) ∈ [(Reg.ctrl, 0x00), (Reg.status, 0x08), (Reg.wdata, 0x10), (Reg.rdata, 0x18)] ∧ 0 < 8) ∧
    ((Reg.rdata, 0x18) ∈ [(Reg.ctrl, 0x00), (Reg.status, 0x08), (Reg.wdata, 0x10), (Reg.rdata, 0x18)] ∧ 7 < 8) ∧
    32 ≤ 32 ∧ TouchesWindow (oddAccess 0x1C 4 .single) ∧ (oddAccess 0x1C 4 .single).bytes < 8 := by
  simp only [← touchesWindow_iff]; decide

theorem witness_EncodeFlagsExactly : State.reset.nv = false ∧ State.reset.rng = false := by decide

theorem witness_EncodeNonFiniteDeliversZero :
    (0x7FF0000000000000#64 : Word).extractLsb' 52 11 = 0x7FF#11 ∧
    (0xFFFFFFFFFFFFFFFF#64 : Word).extractLsb' 52 11 = 0x7FF#11 := by decide

theorem witness_NormalizeNonFiniteDeliversQuietNaN :
    (0xFFF0000000000000#64 : Word).extractLsb' 52 11 = 0x7FF#11 ∧
    (0x7FF0000000000001#64 : Word).extractLsb' 52 11 = 0x7FF#11 := by decide

/-- In range, by the machine's own test. -/
theorem abs_val_le_of_inRange {x : Word} (h : inRange x = true) : |Exact.val x| ≤ Exact.piF := by
  rw [inRange_exact] at h; exact of_decide_eq_true h

/-- Out of range, by the machine's own test. -/
theorem piF_lt_of_not_inRange {x : Word} (h : inRange x = false) : Exact.piF < |Exact.val x| := by
  rw [inRange_exact] at h; exact not_le.1 (of_decide_eq_false h)

/-- A value is not zero, by the machine's quanta. -/
theorem val_ne_zero_of_quanta {x : Word} (h : Machine.val x ≠ 0) : Exact.val x ≠ 0 := by
  rw [← val_quanta]
  exact div_ne_zero (by exact_mod_cast h) (by positivity)

/-- Both words of `PI_F`, the largest values in range. -/
theorem witness_NormalizeKeepsInRangeOperands :
    (Exact.isFinite 0x400921FB54442D18#64 = true ∧ |Exact.val 0x400921FB54442D18#64| ≤ Exact.piF ∧
      Exact.val 0x400921FB54442D18#64 ≠ 0) ∧
    (Exact.isFinite 0xC00921FB54442D18#64 = true ∧ |Exact.val 0xC00921FB54442D18#64| ≤ Exact.piF ∧
      Exact.val 0xC00921FB54442D18#64 ≠ 0) ∧
    (Exact.isFinite 0x8000000000000000#64 = true ∧ |Exact.val 0x8000000000000000#64| ≤ Exact.piF) :=
  ⟨⟨by decide, abs_val_le_of_inRange (by decide), val_ne_zero_of_quanta (by decide)⟩,
    ⟨by decide, abs_val_le_of_inRange (by decide), val_ne_zero_of_quanta (by decide)⟩,
    by decide, abs_val_le_of_inRange (by decide)⟩

/-- The next access of `unit op st r (wr 0 reg v)`. -/
theorem nextIs_wr (op : BitVec 2) (st : BitVec 5) (r : Word) (reg : Reg) (v : Word) :
    NextIs (unit op st r (wr 0 reg v)) reg (.write v) :=
  ⟨_, [], rfl, regWrite_wellFormed 0 reg v, rfl, rfl⟩

theorem nextIs_rd (op : BitVec 2) (st : BitVec 5) (r : Word) (reg : Reg) :
    NextIs (unit op st r (rd 0 reg)) reg .read :=
  ⟨_, [], rfl, regRead_wellFormed 0 reg, rfl, rfl⟩

theorem nextIsReset_unit (op : BitVec 2) (st : BitVec 5) (r : Word) : NextIsReset (unit op st r .reset) :=
  ⟨_, [], rfl, .inl rfl⟩

theorem nextIsReset_during (op : BitVec 2) (st : BitVec 5) (r : Word) (a : Access) :
    NextIsReset (unit op st r (.resetDuring a)) :=
  ⟨_, [], rfl, .inr ⟨a, rfl⟩⟩

/-- A step that answers a next state with the property asked for. -/
def StepsTo (s : State) (P : State → Bool) : Prop := ∃ t, step s = .next t ∧ P t = true

set_option maxRecDepth 20000 in
theorem witness_OneAccessRaisesAtMostOneFlag :
    (StepsTo (unit 0b00 0x00 0x0 (wr 0 .wdata 0x1)) fun t => t.ill && !t.nv && !t.rng && !t.unr) ∧
    (StepsTo (unit 0b11 0x00 0x0 (wr 0 .wdata 0x7FF8000000000000)) fun t => t.nv && !t.ill && !t.rng && !t.unr) ∧
    (StepsTo (unit 0b01 0x00 0x0 (wr 0 .wdata 0x400921FB54442D19)) fun t => t.rng && !t.nv && !t.ill && !t.unr) ∧
    (StepsTo (unit 0b01 0x00 0x0 (rd 0 .rdata)) fun t => t.unr && !t.nv && !t.rng && !t.ill) ∧
    (StepsTo (unit 0b01 0x1F 0x5 (.resetDuring (regRead 0 .rdata))) fun t =>
      !t.nv && !t.rng && !t.ill && !t.unr && !t.rrdy && t.op == 0b00 && t.rdata == 0x0) ∧
    NextIsReset (unit 0b01 0x1F 0x5 (.resetDuring (regRead 0 .rdata))) :=
  ⟨⟨_, rfl, by decide⟩, ⟨_, rfl, by decide⟩, ⟨_, rfl, by decide⟩, ⟨_, rfl, by decide⟩, ⟨_, rfl, by rfl⟩,
    nextIsReset_during _ _ _ _⟩

theorem witness_FlagsAreStickyUntilClearedByOne :
    (∀ f, (unit 0b01 0x1F 0x0 (wr 0 .status 0x1E)).flag f = true ∧
      StepsTo (unit 0b01 0x1F 0x0 (wr 0 .status 0x1E)) fun t => !t.flag f) ∧
    (∀ f, (unit 0b01 0x1F 0x0 .reset).flag f = true ∧ StepsTo (unit 0b01 0x1F 0x0 .reset) fun t => !t.flag f) :=
  ⟨fun f => by cases f <;> exact ⟨by decide, _, rfl, by decide⟩, fun f => by cases f <;> exact ⟨by decide, _, rfl, by decide⟩⟩

theorem witness_OnlyCtrlWritesAndResetChangeOp :
    (StepsTo (unit 0b01 0x00 0x0 (wr 0 .ctrl 0x7)) fun t => t.op != 0b01) ∧
    (StepsTo (unit 0b01 0x00 0x0 .reset) fun t => t.op != 0b01) :=
  ⟨⟨_, rfl, by decide⟩, _, rfl, by decide⟩

theorem witness_OnlyOperationsAndResetChangeTheResult :
    (StepsTo (unit 0b10 0x00 0x5 (wr 0 .wdata 0x1)) fun t => t.rdata != 0x5 && t.rrdy) ∧
    (StepsTo (unit 0b10 0x01 0x5 .reset) fun t => t.rdata != 0x5 && !t.rrdy) ∧
    (StepsTo (unit 0b10 0x01 0x5 (rd 0 .rdata)) fun t => !t.rrdy) :=
  ⟨⟨_, rfl, by decide⟩, ⟨_, rfl, by decide⟩, _, rfl, by decide⟩

/-- Nothing in between, and a configure, a read of the result and a write of `STATUS`; each of the three operations. -/
theorem witness_ReadAfterWriteReturnsItsResult :
    (∀ between ∈ [[], [regWrite 1 .ctrl 0x2#64, regRead 1 .rdata, regWrite 1 .status 0x1E#64]],
      ∀ a ∈ between, a.wellFormed = true ∧ ∀ u, ¬ (a.offset = 0x10 ∧ a.action = .write u)) ∧
    (∃ r, 0b01#2 = 0b01#2 ∧ r = (Exact.encode 0x4010000000000000#64).1.signExtend 64) ∧
    (∃ r, 0b10#2 = 0b10#2 ∧ r = Exact.decode ((0x80000000#64 : Word).extractLsb' 0 32)) ∧
    (∃ r, 0b11#2 = 0b11#2 ∧ r = (Exact.normalize 0x7FEFFFFFFFFFFFFF#64).1) := by
  refine ⟨?_, ⟨_, rfl, rfl⟩, ⟨_, rfl, rfl⟩, ⟨_, rfl, rfl⟩⟩
  intro between hb a ha
  simp only [List.mem_cons, List.not_mem_nil, or_false] at hb
  rcases hb with rfl | rfl
  · cases ha
  · simp only [List.mem_cons, List.not_mem_nil, or_false] at ha
    rcases ha with rfl | rfl | rfl <;> exact ⟨by decide, fun u h => absurd h.1 (by decide)⟩

/-- A state with a flag standing that is recorded, and a step from it. -/
theorem witness_RaisedFlagsAreRecordedForGood :
    ({ unit 0b00 0x1F 0x0 (wr 0 .wdata 0x1) with faultRecorded := true } : State).FlagsRecorded ∧
    StepsTo { unit 0b00 0x1F 0x0 (wr 0 .wdata 0x1) with faultRecorded := true } fun t => t.faultRecorded :=
  ⟨fun _ _ => rfl, _, rfl, by decide⟩

/-- One state for each kind of result word, each with a step from it. -/
theorem witness_ResultRegisterHoldsAResultWord :
    ((unit 0b10 0x00 0xFFFFFFFF80000000#64 (wr 0 .wdata 0x1)).HoldsResultWord ∧
      StepsTo (unit 0b10 0x00 0xFFFFFFFF80000000#64 (wr 0 .wdata 0x1)) fun t => t.rdata == 0x3E1921FB54442D18) ∧
    ((unit 0b10 0x00 0xC00921FB54442D18#64 (rd 0 .rdata)).HoldsResultWord ∧
      StepsTo (unit 0b10 0x00 0xC00921FB54442D18#64 (rd 0 .rdata)) fun t => t.rdata == 0xC00921FB54442D18) ∧
    ((unit 0b10 0x00 0x7FF8000000000000#64 .reset).HoldsResultWord ∧
      StepsTo (unit 0b10 0x00 0x7FF8000000000000#64 .reset) fun t => t.rdata == 0x0) :=
  ⟨⟨.inl ⟨0x80000000#32, by decide⟩, _, rfl, by decide⟩,
    ⟨.inr (.inl ⟨by decide, abs_val_le_of_inRange (by decide)⟩), _, rfl, by decide⟩,
    .inr (.inr rfl), _, rfl, by decide⟩

set_option maxRecDepth 20000 in
/-- Each way to break the contract, at its edge, and the step after which a fault is recorded. -/
theorem witness_FaultRecordedExactlyByBrokenContracts :
    (NextIs (unit 0b00 0x00 0x0 (wr 0 .wdata 0x0)) .wdata (.write 0x0) ∧
      StepsTo (unit 0b00 0x00 0x0 (wr 0 .wdata 0x0)) fun t => t.faultRecorded) ∧
    (Exact.isFinite 0x7FF0000000000000#64 = false ∧
      StepsTo (unit 0b01 0x00 0x0 (wr 0 .wdata 0x7FF0000000000000)) fun t => t.faultRecorded) ∧
    (Exact.piF < |Exact.val 0xC00921FB54442D19#64| ∧
      StepsTo (unit 0b01 0x00 0x0 (wr 0 .wdata 0xC00921FB54442D19)) fun t => t.faultRecorded) ∧
    (StepsTo (unit 0b11 0x00 0x0 (wr 0 .wdata 0x7FF0000000000000)) fun t => t.faultRecorded) ∧
    (NextIs (unit 0b11 0x00 0x0 (rd 0 .rdata)) .rdata .read ∧
      StepsTo (unit 0b11 0x00 0x0 (rd 0 .rdata)) fun t => t.faultRecorded) ∧
    (StepsTo (unit 0b01 0x01 0x0 (rd 0 .rdata)) fun t => !t.faultRecorded) :=
  ⟨⟨nextIs_wr _ _ _ _ _, _, rfl, by decide⟩, ⟨by decide, _, rfl, by decide⟩,
    ⟨piF_lt_of_not_inRange (by decide), _, rfl, by decide⟩, ⟨_, rfl, by decide⟩,
    ⟨nextIs_rd _ _ _ _, _, rfl, by decide⟩, _, rfl, by decide⟩

theorem witness_RoundingMatchesRoundTiesToEven : 0 < 1 := by decide

/-- Both ends of the interval the reduction keeps: `PI_C` is kept, `−PI_C` is not. -/
theorem witness_ReductionIsExact :
    (-Exact.piC < Exact.piC ∧ Exact.piC ≤ Exact.piC) ∧ ¬ (-Exact.piC < -Exact.piC) ∧
      Exact.reduce 1 ≠ Exact.piC := by
  have h1 : (1 : ℚ) < Exact.piC := by norm_num [Exact.piC]
  have hf : ⌊(Exact.piC - 1) / Exact.twoPiC⌋ = 0 := by
    rw [Int.floor_eq_zero_iff]
    constructor
    · exact div_nonneg (by linarith) (by unfold Exact.twoPiC; linarith)
    · rw [div_lt_one (by unfold Exact.twoPiC; linarith)]; unfold Exact.twoPiC; linarith
  refine ⟨⟨by linarith, le_rfl⟩, lt_irrefl _, ?_⟩
  unfold Exact.reduce Exact.fmodFloor
  rw [hf]
  simp only [Int.cast_zero, mul_zero, sub_zero]
  intro h
  linarith

theorem witness_EncodeSaturatesOnlyAtTheTop :
    Exact.isFinite 0x400921FB542B0B1D#64 = true ∧ Exact.isFinite 0xFFEFFFFFFFFFFFFF#64 = true := by decide

/-- In range, just below half a sample step; and out of range, just above `PI_F`. -/
theorem witness_EncodeNeverTies :
    (Exact.isFinite 0x3E0921FB54442D18#64 = true ∧ Machine.val 0x3E0921FB54442D18#64 =
      if |Exact.val 0x3E0921FB54442D18#64| ≤ Exact.piF then Machine.val 0x3E0921FB54442D18#64
      else Machine.reduce (Machine.val 0x3E0921FB54442D18#64)) ∧
    (Exact.isFinite 0x400921FB54442D19#64 = true ∧ Machine.reduce (Machine.val 0x400921FB54442D19#64) =
      if |Exact.val 0x400921FB54442D19#64| ≤ Exact.piF then Machine.val 0x400921FB54442D19#64
      else Machine.reduce (Machine.val 0x400921FB54442D19#64)) := by
  refine ⟨⟨by decide, ?_⟩, by decide, ?_⟩
  · rw [if_pos (abs_val_le_of_inRange (by decide))]
  · rw [if_neg (not_le.2 (piF_lt_of_not_inRange (by decide)))]

/-- The first word with `k` = 2^31, the last with `k` = −2^31 (spec/95_test_vectors.md section 2.2), and 1.0. -/
theorem witness_EncodeIsOddInsideThePrecondition :
    (Exact.isFinite 0x400921FB542B0B1D#64 = true ∧ |Exact.val 0x400921FB542B0B1D#64| ≤ Exact.piF ∧
      Exact.encodedInteger 0x400921FB542B0B1D#64 = 2 ^ 31) ∧
    (Exact.isFinite 0xC00921FB542B0B1D#64 = true ∧ |Exact.val 0xC00921FB542B0B1D#64| ≤ Exact.piF ∧
      Exact.encodedInteger 0xC00921FB542B0B1D#64 = -2 ^ 31) ∧
    (Exact.isFinite 0x3FF0000000000000#64 = true ∧ |Exact.val 0x3FF0000000000000#64| ≤ Exact.piF ∧
      Exact.encodedInteger 0x3FF0000000000000#64 = 683565276) :=
  ⟨⟨by decide, abs_val_le_of_inRange (by decide), (encodedInteger_exact (by decide)).trans (by decide)⟩,
    ⟨by decide, abs_val_le_of_inRange (by decide), (encodedInteger_exact (by decide)).trans (by decide)⟩,
    by decide, abs_val_le_of_inRange (by decide), (encodedInteger_exact (by decide)).trans (by decide)⟩

theorem witness_EncodeIsMonotone :
    Exact.isFinite 0xC00921FB54442D18#64 = true ∧ Exact.isFinite 0x400921FB54442D18#64 = true ∧
    |Exact.val 0xC00921FB54442D18#64| ≤ Exact.piF ∧ |Exact.val 0x400921FB54442D18#64| ≤ Exact.piF ∧
    Exact.val 0xC00921FB54442D18#64 ≤ Exact.val 0x400921FB54442D18#64 := by
  refine ⟨by decide, by decide, abs_val_le_of_inRange (by decide), abs_val_le_of_inRange (by decide), ?_⟩
  rw [← val_quanta, ← val_quanta]
  have h : Machine.val 0xC00921FB54442D18#64 ≤ Machine.val 0x400921FB54442D18#64 := by decide
  gcongr

theorem witness_DecodeRangeAndShape :
    (0#32 : Sample) = 0#32 ∧ (0x80000000#32 : Sample) ≠ 0#32 ∧
    (0x80000001#32 : Sample) ≠ 0#32 ∧ (0x80000001#32 : Sample) ≠ 0x80000000#32 ∧
    (0x80000000#32 : Sample).toInt < (0x7FFFFFFF#32 : Sample).toInt := by decide

/-- Both bounds: the last word with `k` = 2^31 − 1 and the first with `k` = 2^31. -/
theorem witness_DecodeOfEncodeIsWithinHalfAUnit :
    (Exact.isFinite 0x400921FB542B0B1C#64 = true ∧ |Exact.val 0x400921FB542B0B1C#64| ≤ Exact.piF ∧
      Exact.encodedInteger 0x400921FB542B0B1C#64 ≠ 2 ^ 31) ∧
    (Exact.isFinite 0x400921FB542B0B1D#64 = true ∧ |Exact.val 0x400921FB542B0B1D#64| ≤ Exact.piF ∧
      Exact.encodedInteger 0x400921FB542B0B1D#64 = 2 ^ 31) := by
  refine ⟨⟨by decide, abs_val_le_of_inRange (by decide), ?_⟩, by decide, abs_val_le_of_inRange (by decide), ?_⟩
  · rw [encodedInteger_exact (by decide)]; decide
  · rw [encodedInteger_exact (by decide)]; decide

/-- The word just above `PI_F`, and the largest finite one. -/
theorem witness_NormalizeOutOfRangeIsNormalAndOdd :
    (Exact.isFinite 0x400921FB54442D19#64 = true ∧ Exact.piF < |Exact.val 0x400921FB54442D19#64|) ∧
    (Exact.isFinite 0x7FEFFFFFFFFFFFFF#64 = true ∧ Exact.piF < |Exact.val 0x7FEFFFFFFFFFFFFF#64|) :=
  ⟨⟨by decide, piF_lt_of_not_inRange (by decide)⟩, by decide, piF_lt_of_not_inRange (by decide)⟩

theorem witness_NormalizeStaysInRange :
    Exact.isFinite 0x7FEFFFFFFFFFFFFF#64 = true ∧ Exact.isFinite 0x8000000000000000#64 = true := by decide

theorem witness_NormalizeGivesAnEquivalentAngle :
    Exact.isFinite 0x400921FB54442D18#64 = true ∧ |Exact.val 0x400921FB54442D18#64| ≤ Exact.piF :=
  ⟨by decide, abs_val_le_of_inRange (by decide)⟩

theorem witness_NormalizeThenEncodeMeetsThePrecondition : Exact.isFinite 0x400921FB54442D19#64 = true := by decide

theorem witness_EveryCommandWordDecodesByItsLowBits :
    (0xFFFFFFFFFFFFFFFC#64 : Word) &&& 3#64 = 0#64 ∧ (0xFFFFFFFFFFFFFFFD#64 : Word) &&& 3#64 = 1#64 ∧
    (0xFFFFFFFFFFFFFFFE#64 : Word) &&& 3#64 = 2#64 ∧ (0xFFFFFFFFFFFFFFFF#64 : Word) &&& 3#64 = 3#64 ∧
    16 ≤ (List.replicate 16 (0xFF#8 : Byte)).length := by decide

end Sys2Proof.Tests
end

section
/-! ## Proofs for `spec/00_scope.md`: the host's list of steps, the masters (R8), and the rounding to binary64 (R20). -/

namespace Sys2Proof.Machine

/-! ### Nothing pending (R8, R31) -/

/-- With an empty host list a step waits: the counterpart of `step_pending`. -/
theorem step_of_pending_nil {s : State} (hp : s.pending = []) : step s = .next s := by
  unfold step stepHost
  rw [hp]

/-- Settles O6: the step with nothing pending. -/
theorem nothingPendingNothingHappens : Obligations.NothingPendingNothingHappens :=
  fun _ => step_of_pending_nil rfl

/-! ### The master of an access (R8, R150, R157) -/

/-- An access that touches the window is refused by the very reason `whyNotAdmitted` names. -/
theorem performAccess_of_whyNotAdmitted {a : Access} {why : NotAdmitted} (s : State) (ht : TouchesWindow a)
    (hw : whyNotAdmitted a = some why) : performAccess a s = .refused (.notAdmitted why) := by
  unfold performAccess
  rw [if_pos ((touchesWindow_iff a).2 ht), hw]

/-- An admitted access of a register always completes, and another master changes at most to whom a read is answered. -/
theorem performOnReg_withMaster (a : Access) (m : Nat) (r : Reg) (s : State) :
    ∃ t u, performOnReg a r s = .next t ∧ performOnReg { a with master := m } r s = .next u ∧
      u = { t with responses := u.responses } ∧ u.responses.map Response.value = t.responses.map Response.value := by
  unfold performOnReg
  cases a.action with
  | read => exact ⟨_, _, rfl, rfl, rfl, rfl⟩
  | write v =>
    obtain ⟨t, ht⟩ := performWrite_total r v s
    exact ⟨t, t, ht, ht, rfl, rfl⟩

/-- The port decides by the address, form and size of an access alone, so the access of another master is refused for the
same reason or performed alike. -/
theorem performAccess_withMaster (a : Access) (m : Nat) (s : State) :
    (∃ r, performAccess a s = .refused r ∧ performAccess { a with master := m } s = .refused r) ∨
      ∃ t u, performAccess a s = .next t ∧ performAccess { a with master := m } s = .next u ∧
        u = { t with responses := u.responses } ∧
        u.responses.map Response.value = t.responses.map Response.value := by
  by_cases ht : TouchesWindow a
  · cases hw : whyNotAdmitted a with
    | some why =>
      exact .inl ⟨_, performAccess_of_whyNotAdmitted s ht hw,
        performAccess_of_whyNotAdmitted (a := { a with master := m }) s ht hw⟩
    | none =>
      have hwf : a.wellFormed = true := (whyNotAdmitted_eq_none_iff a).1 hw
      obtain ⟨-, -, r, hr⟩ := (wellFormed_iff a).1 hwf
      rw [performAccess_admitted s hwf hr, performAccess_admitted (a := { a with master := m }) s hwf hr]
      exact .inr (performOnReg_withMaster a m r s)
  · exact .inr ⟨s, s, performAccess_outside s ht,
      performAccess_outside (a := { a with master := m }) s ht, rfl, rfl⟩

/-- Settles O36: a step that performs an access is `performAccess`, which is alike for every master. -/
theorem mastersAreNotToldApart : Obligations.MastersAreNotToldApart := by
  intro s a m rest
  rw [step_cons, step_cons]
  exact performAccess_withMaster a m _

/-! ### Rounding to binary64 (R20) -/

/-- The sign bit of the spec's `RNE` is that of the machine's `packFloat`. -/
theorem packFloat_decide (p : Prop) [Decidable p] (e f : ℕ) :
    packFloat (decide p) e f =
      ((if p then 1#1 else 0#1) ++ BitVec.ofNat 11 e ++ BitVec.ofNat 52 f : BitVec (1 + 11 + 52)) := by
  unfold packFloat
  by_cases h : p <;> simp only [h, decide_true, decide_false, if_true, if_false] <;> rfl

/-- A nonnegative integer makes the same field read as a natural number or as an integer. -/
theorem ofNat_toNat_eq_ofInt {w : ℕ} {k : ℤ} (hk : 0 ≤ k) : BitVec.ofNat w k.toNat = BitVec.ofInt w k := by
  rw [← BitVec.ofInt_natCast, Int.toNat_of_nonneg hk]

/-- The spec's `RNE` packs its rounded significand at its rounding exponent. -/
theorem RNE_eq_packRounded {q : ℚ} (hq : q ≠ 0) :
    Exact.RNE q =
      packRounded (decide (q < 0)) (Exact.roundedSignificand q).toNat (Exact.roundingExponent q) := by
  have hn : 0 ≤ Exact.roundedSignificand q := (Exact.roundedSignificand_bounds q).1
  have he : -1022 ≤ Exact.roundingExponent q := le_max_right _ _
  unfold Exact.RNE packRounded
  simp only [if_neg hq, packFloat_decide]
  rw [← Exact.roundingExponent, ← Exact.roundedSignificand]
  generalize Exact.roundedSignificand q = n at hn ⊢
  generalize Exact.roundingExponent q = e at he ⊢
  generalize (if q < 0 then 1#1 else 0#1 : BitVec 1) = s
  have hcarry : n.toNat = 0x20000000000000 ↔ n = 2 ^ 53 := by omega
  have hn' : (if n = 2 ^ 53 then 0x10000000000000 else n.toNat) = (if n = 2 ^ 53 then 2 ^ 52 else n).toNat := by
    split_ifs <;> rfl
  have hn0 : 0 ≤ if n = 2 ^ 53 then 2 ^ 52 else n := by split_ifs <;> omega
  have he0 : -1022 ≤ if n = 2 ^ 53 then e + 1 else e := by split_ifs <;> omega
  simp only [hcarry, hn']
  generalize (if n = 2 ^ 53 then 2 ^ 52 else n) = n' at hn0 ⊢
  generalize (if n = 2 ^ 53 then e + 1 else e) = e' at he0 ⊢
  have hsub : n'.toNat < 0x10000000000000 ↔ n' < 2 ^ 52 := by omega
  have hfrac : n'.toNat - 0x10000000000000 = (n' - 2 ^ 52).toNat := by omega
  simp only [hsub, hfrac]
  split_ifs with hover hlt
  · rfl
  · rw [ofNat_toNat_eq_ofInt hn0]
  · rw [ofNat_toNat_eq_ofInt (by omega), ofNat_toNat_eq_ofInt (by omega)]

/-- The magnitude of a fraction is the fraction of the magnitude of its numerator. -/
theorem abs_intCast_div_natCast (num : ℤ) (den : ℕ) : |(num : ℚ) / den| = (num.natAbs : ℚ) / den := by
  rw [abs_div, Nat.abs_cast, Nat.cast_natAbs, Int.cast_abs]

/-- The machine's shifts scale a fraction by the spec's `2^(e - 52)`, whichever sign that exponent has. -/
theorem shifted_fraction (n d : ℕ) (e : ℤ) :
    (((n <<< (52 - e).toNat : ℕ) : ℤ) : ℚ) / ((d <<< (e - 52).toNat : ℕ) : ℚ) = (n : ℚ) / d / 2 ^ (e - 52) := by
  rw [Int.cast_natCast, natCast_shiftLeft, natCast_shiftLeft]
  rcases le_total 0 (e - 52) with h | h
  · obtain ⟨k, hk⟩ := Int.eq_ofNat_of_zero_le h
    rw [hk, show 52 - e = -(k : ℤ) by omega, Int.toNat_natCast, Int.toNat_neg_natCast, pow_zero, mul_one,
      zpow_natCast, div_div]
  · obtain ⟨k, hk⟩ := Int.eq_ofNat_of_zero_le (by omega : 0 ≤ 52 - e)
    rw [hk, show e - 52 = -(k : ℤ) by omega, Int.toNat_natCast, Int.toNat_neg_natCast, pow_zero, mul_one,
      zpow_neg, zpow_natCast, div_inv_eq_mul, mul_div_right_comm]

/-- The machine's rounding (R20) is the spec's `RNE` of the fraction. -/
theorem rne_exact (num : ℤ) {den : ℕ} (hd : 0 < den) : rne num den = Exact.RNE ((num : ℚ) / den) := by
  have hd' : (0 : ℚ) < den := by exact_mod_cast hd
  by_cases h0 : num = 0
  · simp [rne, Exact.RNE, h0]
  have hq : (num : ℚ) / den ≠ 0 := div_ne_zero (by exact_mod_cast h0) hd'.ne'
  have hsign : (num : ℚ) / den < 0 ↔ num < 0 := by rw [div_lt_iff₀ hd', zero_mul, Int.cast_lt_zero]
  have hexp : max (floorLog2 num.natAbs den) (-1022) = Exact.roundingExponent ((num : ℚ) / den) := by
    rw [Exact.roundingExponent, abs_intCast_div_natCast, floorLog2_exact _ _ (Int.natAbs_pos.2 h0) hd]
  have hsig : ∀ e, e = Exact.roundingExponent ((num : ℚ) / den) →
      rintEven (num.natAbs <<< (52 - e).toNat : ℕ) (den <<< (e - 52).toNat) =
        Exact.roundedSignificand ((num : ℚ) / den) := by
    rintro e rfl
    rw [rintEven_exact _ _ (shiftLeft_pos _ hd), shifted_fraction, ← abs_intCast_div_natCast,
      Exact.roundedSignificand]
  rw [RNE_eq_packRounded hq, ← hsig _ hexp, ← hexp]
  simp only [rne, if_neg h0, hsign]

/-- Settles O41: rounding a fraction by integers is `RNE` of the rational. -/
theorem roundingMatchesRoundTiesToEven : Obligations.RoundingMatchesRoundTiesToEven :=
  fun num _ hd => rne_exact num hd

end Sys2Proof.Machine
end

section
/-! ## Proofs for `spec/10_state.md`: the registers after reset (R42), and what each step can do to `RDATA` (R37), the
flags (R38) and `CTRL.OP` (R35). -/

namespace Sys2Proof.Machine

/-! ### The range of the operations -/

/-- The machine's reduction (R81), in quanta, is the spec's reduction of the rational. -/
theorem reduce_quanta (v : ℤ) : (Machine.reduce v : ℚ) / 2 ^ 1074 = Exact.reduce ((v : ℚ) / 2 ^ 1074) := by
  have hq : (0 : ℚ) < 2 ^ 1074 := by positivity
  unfold Machine.reduce Machine.fmodFloor Exact.reduce Exact.fmodFloor
  rw [← piC_quanta, ← twoPiC_quanta, ← floor_fraction]
  generalize (2 : ℚ) ^ 1074 = q at hq ⊢
  rw [← sub_div, div_div_div_cancel_right₀ hq.ne']
  push_cast
  ring

/-- The word `NORMALIZE` delivers outside the range (R100) is the rounded reduction over the rationals. -/
theorem rne_reduce_exact (x : Word) :
    rne (Machine.reduce (Machine.val x)) quantaPerRadian = Exact.RNE (Exact.reduce (Exact.val x)) := by
  unfold quantaPerRadian
  rw [rne_exact _ (shiftLeft_pos 1074 one_pos), natCast_shiftLeft, Nat.cast_one, one_mul, reduce_quanta, val_quanta]

/-- `DECODE` (R90) is the spec's formula over the rationals. -/
theorem decodeSample_exact (w : Sample) : decodeSample w = Exact.decode w := by
  have hangle : ((w.toInt * piN : ℤ) : ℚ) / ((1 <<< 93 : ℕ) : ℚ) = w.toInt * Exact.piC / 2 ^ 31 := by
    rw [natCast_shiftLeft]
    norm_num [piN, Exact.piC]
    ring
  rw [decodeSample, rne_exact _ (shiftLeft_pos 93 one_pos), hangle, Exact.decode]

/-- A sample stands for an angle of at most `PI_C` (R92). -/
theorem abs_sample_angle_le (w : Sample) : |(w.toInt : ℚ) * Exact.piC / 2 ^ 31| ≤ Exact.piC := by
  have hw : |(w.toInt : ℚ)| ≤ 2 ^ 31 := by
    rw [abs_le]
    have hlo := BitVec.le_toInt w
    have hhi := BitVec.toInt_lt (x := w)
    constructor
    · exact_mod_cast hlo
    · exact_mod_cast hhi.le
  rw [abs_div, abs_mul, abs_of_pos Exact.piC_pos, abs_of_pos (by positivity : (0 : ℚ) < 2 ^ 31),
    div_le_iff₀ (by positivity), mul_comm]
  exact mul_le_mul_of_nonneg_left hw Exact.piC_pos.le

theorem isResultWord_zero : IsResultWord 0x0000000000000000#64 := .inl ⟨0x00000000#32, by decide⟩

/-- Rounding an angle of at most `PI_C` gives a result word. -/
theorem isResultWord_RNE {q : ℚ} (h : |q| ≤ Exact.piC) : IsResultWord (Exact.RNE q) :=
  .inr (.inl ⟨(Exact.RNE_near h).2, Exact.abs_val_RNE_le h⟩)

theorem isResultWord_sampleResult (w : Sample) : IsResultWord (sampleResult w) := .inl ⟨w, rfl⟩

theorem isResultWord_decodeSample (w : Sample) : IsResultWord (decodeSample w) := by
  rw [decodeSample_exact]
  exact isResultWord_RNE (abs_sample_angle_le w)

theorem isResultWord_normalizeWord (x : Word) : IsResultWord (normalizeWord x) := by
  unfold normalizeWord
  split_ifs with hnan hin
  · exact .inr (.inr rfl)
  · rw [isFinite_exact] at hnan
    rw [inRange_exact] at hin
    exact .inr (.inl ⟨by simpa using hnan, of_decide_eq_true hin⟩)
  · rw [rne_reduce_exact]
    exact isResultWord_RNE (Exact.abs_reduce_le _)

/-! ### What each update does to `RDATA` and to a flag -/

@[simp] theorem State.raiseAll_rdata (s : State) (fs : List Flag) : (s.raiseAll fs).rdata = s.rdata := by
  rw [State.raiseAll_eq]

/-- Raising the flag `g` sets `g` and leaves the others (spec/60_exceptions.md R141). -/
theorem State.raise_flag (s : State) (f g : Flag) : (s.raise g).flag f = (s.flag f || decide (g = f)) := by
  cases f <;> simp

@[simp] theorem State.setOp_flag (s : State) (o : BitVec 2) (f : Flag) : (s.setOp o).flag f = s.flag f := by
  cases f <;> rfl

@[simp] theorem State.clearReady_flag (s : State) (f : Flag) : s.clearReady.flag f = s.flag f := by cases f <;> rfl

/-- A write of `STATUS` clears a flag exactly where its bit is 1 (R126). -/
theorem State.clearFlags_flag (s : State) (v : Word) (f : Flag) :
    (s.clearFlags v).flag f = (s.flag f && !v.getLsbD (flagBit f)) := by
  cases f <;> rfl

/-! ### What an instruction keeps -/

theorem exec_keeps_op {i : Instr} {s t : State} (h : exec i s = .next t) : t.op = s.op := by
  obtain ⟨r, fs, rfl, -⟩ := exec_effect h
  rfl

/-- An instruction only raises flags (R141). -/
theorem exec_keeps_raised_flag {i : Instr} {s t : State} {f : Flag} (h : exec i s = .next t)
    (hf : s.flag f = true) : t.flag f = true := by
  obtain ⟨r, fs, rfl, -⟩ := exec_effect h
  cases f <;> exact Bool.or_eq_true_iff.2 (.inl hf)

theorem exec_keeps_rrdy {i : Instr} {s t : State} (h : exec i s = .next t) (hr : s.rrdy = true) : t.rrdy = true := by
  obtain ⟨r, fs, rfl, -⟩ := exec_effect h
  simp [hr]

/-- `NONE` delivers nothing (R120). -/
theorem exec_none_keeps_result {i : Instr} {s t : State} (h : exec i s = .next t) (hi : i.op = 0b00#2) :
    t.rdata = s.rdata ∧ t.rrdy = s.rrdy := by
  obtain ⟨r, fs, rfl, ⟨-, rfl, -⟩ | ⟨hne, -⟩⟩ := exec_effect h
  · simp
  · exact absurd hi hne

/-- Every operation delivers a result word, and `NONE` keeps the one that stands. -/
theorem exec_holdsResultWord {i : Instr} {s t : State} (h : exec i s = .next t) (hs : s.HoldsResultWord) :
    t.HoldsResultWord := by
  unfold State.HoldsResultWord at hs ⊢
  cases i with
  | none v => cases h; rwa [State.raise_rdata]
  | encode x => cases h; rw [State.raiseAll_rdata]; exact isResultWord_sampleResult _
  | decode v => cases h; exact isResultWord_decodeSample _
  | normalize x => cases h; rw [State.raiseAll_rdata]; exact isResultWord_normalizeWord x

/-! ### What a read of `RDATA` does -/

@[simp] theorem readRdata_op (s : State) : (readRdata s).2.op = s.op := by
  unfold readRdata
  split_ifs <;> simp

@[simp] theorem readRdata_rdata (s : State) : (readRdata s).2.rdata = s.rdata := by
  unfold readRdata
  split_ifs <;> simp

@[simp] theorem readRdata_rrdy (s : State) : (readRdata s).2.rrdy = false := rfl

/-- A read of `RDATA` only raises flags (R124). -/
theorem readRdata_keeps_raised_flag {s : State} {f : Flag} (hf : s.flag f = true) :
    (readRdata s).2.flag f = true := by
  unfold readRdata
  split_ifs <;> simp [State.raise_flag, hf]

/-! ### What a step does to the unit -/

/-- Two states agree on the 71 bits of the unit (R30), whatever the host's side of the port and the model's own record
hold. -/
structure State.SameUnit (s t : State) : Prop where
  op : s.op = t.op
  rdata : s.rdata = t.rdata
  rrdy : s.rrdy = t.rrdy
  nv : s.nv = t.nv
  rng : s.rng = t.rng
  ill : s.ill = t.ill
  unr : s.unr = t.unr

theorem State.SameUnit.flag {s t : State} (h : s.SameUnit t) : ∀ f, s.flag f = t.flag f
  | .nv => h.nv
  | .rng => h.rng
  | .ill => h.ill
  | .unr => h.unr

theorem State.sameUnit_refl (s : State) : s.SameUnit s := ⟨rfl, rfl, rfl, rfl, rfl, rfl, rfl⟩

theorem State.sameUnit_takeStep (s : State) (rest : List HostStep) : (s.takeStep rest).SameUnit s :=
  ⟨rfl, rfl, rfl, rfl, rfl, rfl, rfl⟩

/-- What a step that answers a next state does to the unit: it resets it, writes `CTRL.OP`, clears flags, performs an
operation, takes the result, or leaves the unit as it is. -/
theorem step_unit {s t : State} (h : step s = .next t) :
    (NextIsReset s ∧ t.SameUnit s.unitReset) ∨
    (∃ v, NextIs s .ctrl (.write v) ∧ t.SameUnit (s.setOp (opField v))) ∨
    (∃ v, NextIs s .status (.write v) ∧ t.SameUnit (s.clearFlags v)) ∨
    (∃ rest v, NextIs s .wdata (.write v) ∧ exec (decodeOp s.op v) (s.takeStep rest) = .next t) ∨
    (NextIs s .rdata .read ∧ t.SameUnit (readRdata s).2) ∨
    t.SameUnit s := by
  rcases step_effect h with ⟨-, rfl⟩ | ⟨hn, hop, hrdata, hrrdy, -, hflag⟩ | ⟨rest, rfl, -⟩ |
    ⟨rest, m, v, _, rfl, rfl, -⟩ | ⟨rest, m, v, rfl, hn⟩ | ⟨rest, v, hn, rfl⟩ | ⟨rest, v, hn, rfl⟩ |
    ⟨rest, v, hn, he⟩ | ⟨rest, v, -, rfl⟩
  · exact .inr (.inr (.inr (.inr (.inr t.sameUnit_refl))))
  · exact .inl ⟨hn, hop, hrdata, hrrdy, hflag .nv, hflag .rng, hflag .ill, hflag .unr⟩
  · exact .inr (.inr (.inr (.inr (.inr (s.sameUnit_takeStep rest)))))
  · exact .inr (.inr (.inr (.inr (.inr ⟨rfl, rfl, rfl, rfl, rfl, rfl, rfl⟩))))
  · refine .inr (.inr (.inr (.inr (.inl ⟨hn, ?_⟩))))
    unfold readRdata
    split_ifs <;> exact ⟨rfl, rfl, rfl, rfl, rfl, rfl, rfl⟩
  · exact .inr (.inl ⟨v, hn, rfl, rfl, rfl, rfl, rfl, rfl, rfl⟩)
  · exact .inr (.inr (.inl ⟨v, hn, rfl, rfl, rfl, rfl, rfl, rfl, rfl⟩))
  · exact .inr (.inr (.inr (.inl ⟨rest, v, hn, he⟩)))
  · exact .inr (.inr (.inr (.inr (.inr (s.sameUnit_takeStep rest)))))

/-- A step keeps `RDATA`, resets it, or performs the operation that `CTRL.OP` selects (R37). -/
theorem step_rdata {s t : State} (h : step s = .next t) :
    t.rdata = s.rdata ∨ (NextIsReset s ∧ t.rdata = 0x0000000000000000#64) ∨
      ∃ rest v, NextIs s .wdata (.write v) ∧ exec (decodeOp s.op v) (s.takeStep rest) = .next t := by
  rcases step_unit h with ⟨hn, hu⟩ | ⟨v, -, hu⟩ | ⟨v, -, hu⟩ | ⟨rest, v, hn, he⟩ | ⟨-, hu⟩ | hu
  · exact .inr (.inl ⟨hn, hu.rdata⟩)
  · exact .inl hu.rdata
  · exact .inl hu.rdata
  · exact .inr (.inr ⟨rest, v, hn, he⟩)
  · exact .inl (hu.rdata.trans (readRdata_rdata s))
  · exact .inl hu.rdata

/-- A step keeps `RRDY`, clears it by a reset or a read of `RDATA`, or performs the operation that `CTRL.OP` selects
(R38). -/
theorem step_rrdy {s t : State} (h : step s = .next t) :
    t.rrdy = s.rrdy ∨ ((NextIsReset s ∨ NextIs s .rdata .read) ∧ t.rrdy = false) ∨
      ∃ rest v, NextIs s .wdata (.write v) ∧ exec (decodeOp s.op v) (s.takeStep rest) = .next t := by
  rcases step_unit h with ⟨hn, hu⟩ | ⟨v, -, hu⟩ | ⟨v, -, hu⟩ | ⟨rest, v, hn, he⟩ | ⟨hn, hu⟩ | hu
  · exact .inr (.inl ⟨.inl hn, hu.rrdy⟩)
  · exact .inl hu.rrdy
  · exact .inl hu.rrdy
  · exact .inr (.inr ⟨rest, v, hn, he⟩)
  · exact .inr (.inl ⟨.inr hn, hu.rrdy⟩)
  · exact .inl hu.rrdy

/-- A `WDATA` write that changed `RDATA` or `RRDY` performed an operation: `CTRL.OP` was not NONE. -/
theorem op_ne_none_of_exec {s t : State} {v : Word} {rest : List HostStep}
    (he : exec (decodeOp s.op v) (s.takeStep rest) = .next t) (hne : t.rdata ≠ s.rdata ∨ t.rrdy ≠ s.rrdy) :
    s.op ≠ 0b00#2 := by
  intro h0
  obtain ⟨hrdata, hrrdy⟩ := exec_none_keeps_result he ((op_of_decodeOp _ _).trans h0)
  exact hne.elim (absurd hrdata) (absurd hrrdy)

/-! ### The statements -/

/-- Settles O38: the word that stands, the reset value and every delivered word are result words. -/
theorem resultRegisterHoldsAResultWord : Obligations.ResultRegisterHoldsAResultWord := by
  intro s t hs h
  rcases step_rdata h with hkept | ⟨-, hzero⟩ | ⟨rest, v, -, he⟩
  · rwa [State.HoldsResultWord, hkept]
  · rw [State.HoldsResultWord, hzero]
    exact isResultWord_zero
  · exact exec_holdsResultWord he hs

/-- Settles O32: of the things a step does, only a reset and a write of `STATUS` clear flags. -/
theorem flagsAreStickyUntilClearedByOne : Obligations.FlagsAreStickyUntilClearedByOne := by
  intro s t f h hs ht
  have hcleared : t.flag f ≠ true := by simp [ht]
  rcases step_unit h with ⟨hn, -⟩ | ⟨v, -, hu⟩ | ⟨v, hn, hu⟩ | ⟨rest, v, -, he⟩ | ⟨-, hu⟩ | hu
  · exact .inl hn
  · exact absurd ((hu.flag f).trans ((s.setOp_flag (opField v) f).trans hs)) hcleared
  · have hbit : v.getLsbD (flagBit f) = true := by simpa [hu.flag, State.clearFlags_flag, hs] using ht
    exact .inr ⟨v, hn, by cases f <;> exact hbit⟩
  · have htaken : (s.takeStep rest).flag f = true := ((s.sameUnit_takeStep rest).flag f).trans hs
    exact absurd (exec_keeps_raised_flag he htaken) hcleared
  · exact absurd ((hu.flag f).trans (readRdata_keeps_raised_flag hs)) hcleared
  · exact absurd ((hu.flag f).trans hs) hcleared

/-- Settles O33: of the things a step does, only a reset and a write of `CTRL` change `CTRL.OP`. -/
theorem onlyCtrlWritesAndResetChangeOp : Obligations.OnlyCtrlWritesAndResetChangeOp := by
  intro s t h hop
  rcases step_unit h with ⟨hn, hu⟩ | ⟨v, hn, hu⟩ | ⟨v, -, hu⟩ | ⟨rest, v, -, he⟩ | ⟨-, hu⟩ | hu
  · exact .inl ⟨hn, hu.op⟩
  · exact .inr ⟨v, hn, hu.op⟩
  · exact absurd hu.op hop
  · exact absurd (exec_keeps_op he) hop
  · exact absurd (hu.op.trans (readRdata_op s)) hop
  · exact absurd hu.op hop

/-- Settles O34: the three clauses from what a step does to `RDATA` and to `RRDY`. -/
theorem onlyOperationsAndResetChangeTheResult : Obligations.OnlyOperationsAndResetChangeTheResult := by
  intro s t h
  refine ⟨fun hne => ?_, fun hs ht => ?_, fun hs ht => ?_⟩
  · rcases step_rdata h with hkept | ⟨hn, -⟩ | ⟨rest, v, hn, he⟩
    · exact absurd hkept hne
    · exact .inl hn
    · exact .inr ⟨op_ne_none_of_exec he (.inl hne), v, hn⟩
  · rcases step_rrdy h with hkept | ⟨-, hclear⟩ | ⟨rest, v, hn, he⟩
    · simp [hs, ht] at hkept
    · simp [ht] at hclear
    · exact ⟨op_ne_none_of_exec he (.inr (by simp [hs, ht])), v, hn⟩
  · rcases step_rrdy h with hkept | ⟨hn, -⟩ | ⟨rest, v, -, he⟩
    · simp [hs, ht] at hkept
    · exact hn
    · simp [exec_keeps_rrdy he hs] at ht

/-- Settles O1: the reset state, field by field and as its registers read. -/
theorem resetStateReadsZero : Obligations.ResetStateReadsZero :=
  ⟨rfl, rfl, rfl, rfl, rfl, rfl, rfl, rfl, rfl, rfl⟩

end Sys2Proof.Machine
end

section
/-! ## Proofs for `spec/20_memory.md`: the addresses and bytes of the window (R45, R49), the accesses the port admits (R46,
R47), and the result a later read returns (R54). -/

namespace Sys2Proof.Machine

/-! ### The window's registers: their addresses (R45) and their bytes (R49) -/

/-- The table of offsets that the statements write out is `regOffset`. -/
theorem regOffset_of_mem_table {r : Reg} {off : Nat}
    (h : (r, off) ∈ [(Reg.ctrl, 0x00), (Reg.status, 0x08), (Reg.wdata, 0x10), (Reg.rdata, 0x18)]) :
    regOffset r = off := by
  simp only [List.mem_cons, Prod.mk.injEq, List.not_mem_nil, or_false] at h
  rcases h with ⟨rfl, rfl⟩ | ⟨rfl, rfl⟩ | ⟨rfl, rfl⟩ | ⟨rfl, rfl⟩ <;> rfl

/-- The eight bytes of a register are cut from the word it reads as, lowest first. -/
theorem windowByte_register (s : State) {r : Reg} {off k : Nat} (ho : regOffset r = off) (hk : k < 8) :
    s.windowByte (off + k) = some ((s.regWord r).extractLsb' (8 * k) 8) := by
  unfold State.windowByte
  cases r with
  | ctrl =>
    obtain rfl : 0x00 = off := Int.ofNat.inj ho
    rw [if_pos (by omega), Nat.zero_add]
  | status =>
    obtain rfl : 0x08 = off := Int.ofNat.inj ho
    rw [if_neg (by omega), if_pos (by omega), Nat.add_sub_cancel_left]
  | wdata =>
    obtain rfl : 0x10 = off := Int.ofNat.inj ho
    rw [if_neg (by omega), if_neg (by omega), if_pos (by omega), Nat.add_sub_cancel_left]
  | rdata =>
    obtain rfl : 0x18 = off := Int.ofNat.inj ho
    rw [if_neg (by omega), if_neg (by omega), if_neg (by omega), if_pos (by omega), Nat.add_sub_cancel_left]

theorem windowByte_beyond (s : State) {k : Nat} (hk : 32 ≤ k) : s.windowByte k = none := by
  unfold State.windowByte
  rw [if_neg (by omega), if_neg (by omega), if_neg (by omega), if_neg (by omega)]

/-! ### The accesses the port admits (R46, R47) -/

/-- `wellFormed_iff` with the four offsets written out, as R47 gives them. -/
theorem wellFormed_iff_offset (a : Access) :
    a.wellFormed = true ↔ a.form = .single ∧ a.bytes = 8 ∧
      (a.offset = 0x00 ∨ a.offset = 0x08 ∨ a.offset = 0x10 ∨ a.offset = 0x18) := by
  rw [wellFormed_iff, regAt_isSome_iff]

/-- `step_cons` at an access. -/
theorem step_access (s : State) (a : Access) (rest : List HostStep) :
    step { s with pending := .access a :: rest } =
      performAccess a { s with pending := rest, hostIndex := s.hostIndex + 1 } := rfl

/-- An access completes, or it touches the window, is not admitted and is refused. -/
theorem performAccess_next_or_refused (a : Access) (s : State) :
    (∃ t, performAccess a s = .next t) ∨
      (TouchesWindow a ∧ a.wellFormed = false ∧ ∃ why, performAccess a s = .refused (.notAdmitted why)) := by
  by_cases ht : TouchesWindow a
  · cases hw : a.wellFormed with
    | true => exact .inl (performAccess_total a s hw)
    | false => exact .inr ⟨ht, rfl, performAccess_notAdmitted s ht hw⟩
  · exact .inl ⟨s, performAccess_outside s ht⟩

/-! ### The delivered words are those of the spec's formulas -/

/-- The machine's conversion of an angle of `y` quanta (R82) is the spec's over the rationals. -/
theorem quantize_exact (y : ℤ) :
    quantize y = BitVec.ofInt 32 (Exact.sat32 (Exact.rintEven ((y : ℚ) / 2 ^ 1074 * 2 ^ 31 / Exact.piC))) := by
  have hangle : ((y * 2147483648 : ℤ) : ℚ) / (piC : ℚ) = (y : ℚ) / 2 ^ 1074 * 2 ^ 31 / Exact.piC := by
    have hq : (2 : ℚ) ^ 1074 ≠ 0 := by positivity
    rw [← piC_quanta, div_mul_eq_mul_div, div_div_div_cancel_right₀ hq]
    push_cast
    norm_num
  rw [quantize, sat32_exact, rintEven_exact _ _ piC_pos, hangle]

/-- `ENCODE` (R82) delivers the spec's sample. -/
theorem encodeSample_exact (x : Word) : encodeSample x = (Exact.encode x).1 := by
  unfold encodeSample Exact.encode Exact.encodedInteger Exact.encodedAngle
  simp only [isFinite_exact, inRange_exact, decide_eq_true_eq, quantize_exact, reduce_quanta, val_quanta,
    Bool.not_eq_true']
  split_ifs <;> rfl

/-- `NORMALIZE` (R100) delivers the spec's word. -/
theorem normalizeWord_exact (x : Word) : normalizeWord x = (Exact.normalize x).1 := by
  unfold normalizeWord Exact.normalize
  simp only [isFinite_exact, inRange_exact, decide_eq_true_eq, rne_reduce_exact, Bool.not_eq_true']
  split_ifs <;> rfl

/-! ### The result stands until the next write of `WDATA` (R54) -/

/-- An instruction leaves the host's list and its index alone. -/
theorem exec_keeps_host {i : Instr} {s t : State} (h : exec i s = .next t) :
    t.pending = s.pending ∧ t.hostIndex = s.hostIndex := by
  obtain ⟨r, fs, rfl, -⟩ := exec_effect h
  exact ⟨rfl, rfl⟩

/-- The word `r` is the spec's result of the operand `v` under `op`, which selects an operation. -/
def IsResultOf (op : BitVec 2) (v r : Word) : Prop :=
  (op = 0b01#2 ∧ r = (Exact.encode v).1.signExtend 64) ∨ (op = 0b10#2 ∧ r = Exact.decode (v.extractLsb' 0 32)) ∨
    (op = 0b11#2 ∧ r = (Exact.normalize v).1)

theorem exec_leaves_result {op : BitVec 2} {v r : Word} (hr : IsResultOf op v r) {s t : State}
    (h : exec (decodeOp op v) s = .next t) : t.rdata = r := by
  rcases hr with ⟨rfl, rfl⟩ | ⟨rfl, rfl⟩ | ⟨rfl, rfl⟩ <;> cases h
  · rw [State.raiseAll_rdata, ← encodeSample_exact]; rfl
  · exact decodeSample_exact _
  · rw [State.raiseAll_rdata]; exact normalizeWord_exact v

/-- A write of `WDATA` under an operation completes and leaves its result in `RDATA` (R123). -/
theorem step_write_result {s : State} {m : Nat} {v r : Word} {rest : List HostStep} (hr : IsResultOf s.op v r)
    (hp : s.pending = .access (regWrite m .wdata v) :: rest) :
    ∃ t, step s = .next t ∧ t.rdata = r ∧ t.pending = rest ∧ t.hostIndex = s.hostIndex + 1 := by
  rw [step_wdata hp]
  obtain ⟨t, hexec⟩ := exec_next (decodeOp s.op v) (s.takeStep rest)
  obtain ⟨hpending, hindex⟩ := exec_keeps_host hexec
  exact ⟨t, hexec, exec_leaves_result hr hexec, hpending, hindex⟩

/-- An admitted access that does not write `WDATA`. -/
def KeepsResult (a : Access) : Prop := a.wellFormed = true ∧ ∀ u, ¬ (a.offset = 0x10 ∧ a.action = .write u)

/-- A run is its first step and then the rest. -/
theorem run_succ {s t : State} (h : step s = .next t) (n : Nat) :
    Sys2Proof.core.run (n + 1) s = Sys2Proof.core.run n t := by
  rw [add_comm, run_add n (run_one h)]

/-- Any number of accesses that keep the result complete, and the result still stands. -/
theorem run_keeps_result {between : List Access} (hb : ∀ a ∈ between, KeepsResult a) {tail : List HostStep} {s : State}
    (hp : s.pending = between.map HostStep.access ++ tail) :
    ∃ t, Sys2Proof.core.run between.length s = .next t ∧ t.rdata = s.rdata ∧ t.pending = tail ∧
      t.hostIndex = s.hostIndex + between.length := by
  induction between generalizing s with
  | nil => exact ⟨s, rfl, rfl, hp, rfl⟩
  | cons a between ih =>
    obtain ⟨⟨hw, hn⟩, hb⟩ := List.forall_mem_cons.1 hb
    obtain ⟨u, hstep, hrdata, hpending, hindex⟩ := step_keeps_result hw hn hp
    obtain ⟨t, hrun, hrdata', hpending', hindex'⟩ := ih hb hpending
    refine ⟨t, (run_succ hstep _).trans hrun, hrdata'.trans hrdata, hpending', ?_⟩
    rw [hindex', hindex, List.length_cons]
    omega

/-- A read of `RDATA` returns the word that stands to the master that reads (R124). -/
theorem step_read_result {s : State} {m : Nat} {rest : List HostStep}
    (hp : s.pending = .access (regRead m .rdata) :: rest) :
    ∃ t, step s = .next t ∧ t.responses.head? = some { master := m, value := s.rdata } ∧ t.pending = rest ∧
      t.hostIndex = s.hostIndex + 1 := by
  refine ⟨_, step_regRead hp, rfl, ?_⟩
  simp only [performRead, readRdata]
  split_ifs <;> exact ⟨rfl, rfl⟩

/-! ### The statements -/

/-- Settles O15: the port admits exactly the well-formed accesses. -/
theorem notAdmittedAccessIsRefused : Obligations.NotAdmittedAccessIsRefused := by
  intro s a rest ht
  rw [step_access, ← wellFormed_iff_offset]
  exact ⟨fun hw => performAccess_notAdmitted _ ht (Bool.eq_false_of_not_eq_true hw), performAccess_total a _⟩

/-- Settles O16: by the next host step, of which only an access can stop the machine. -/
theorem stepStopsOnlyAtNotAdmittedAccess : Obligations.StepStopsOnlyAtNotAdmittedAccess := by
  intro s
  cases hp : s.pending with
  | nil => exact .inl ⟨s, step_of_pending_nil hp⟩
  | cons h rest =>
    rw [step_pending s h rest hp]
    cases h with
    | reset => exact .inl ⟨_, rfl⟩
    | resetDuring a => exact .inl ⟨_, rfl⟩
    | access a =>
      rcases performAccess_next_or_refused a (s.takeStep rest) with hnext | ⟨ht, hw, why, hrefused⟩
      · exact .inl hnext
      · exact .inr ⟨a, rest, why, rfl, ht, hw, hrefused⟩

/-- Settles O17: the port leaves the state to an access outside the window. -/
theorem accessOutsideTheWindowLeavesTheUnit : Obligations.AccessOutsideTheWindowLeavesTheUnit :=
  fun _ _ _ ht => performAccess_outside _ ht

/-- Settles O18: the bus address less `BASE` is the register's offset. -/
theorem busAddressReachesRegister : Obligations.BusAddressReachesRegister := by
  refine ⟨Nat.mul_mod_right 32 _, fun m r off hmem => ?_⟩
  have hoffset : ((Config.base + off : Nat) : Int) - Config.base = regOffset r := by
    rw [regOffset_of_mem_table hmem]
    omega
  refine ⟨?_, fun v => ?_, ?_⟩
  · rw [memRead, hoffset, regRead]
  · rw [memWrite, hoffset, regWrite]
  · rw [← regOffset_of_mem_table hmem]; rfl

/-- Settles O19: each byte is cut from its register's word, and an access narrower than a register is not admitted. -/
theorem windowBytesAreLittleEndian : Obligations.WindowBytesAreLittleEndian := by
  refine ⟨fun s r off k hmem hk => ?_, fun s k => windowByte_beyond s, fun s a rest ht hbytes => ?_⟩
  · refine ⟨_, windowByte_register s (regOffset_of_mem_table hmem) hk, fun i hi => ?_⟩
    simp [hi]
  · refine (notAdmittedAccessIsRefused s a rest ht).1 fun ⟨_, h8, _⟩ => ?_
    omega

/-- Settles O35: the write leaves the result in `RDATA`, the accesses between keep it there, and the read returns it. -/
theorem readAfterWriteReturnsItsResult : Obligations.ReadAfterWriteReturnsItsResult := by
  intro s m m' k v between rest hbetween op r hr
  obtain ⟨t₁, hwrite, hrdata₁, hpending₁, hindex₁⟩ := step_write_result
    (s := { s with op := op, hostIndex := k,
                   pending := .access (regWrite m' .wdata v) ::
                     (between.map HostStep.access ++ .access (regRead m .rdata) :: rest) }) hr rfl
  obtain ⟨t₂, hrun, hrdata₂, hpending₂, hindex₂⟩ := run_keeps_result hbetween hpending₁
  obtain ⟨t, hread, hresponse, hpending, hindex⟩ := step_read_result hpending₂
  refine ⟨t, ?_, ?_, hpending, ?_⟩
  · rw [run_succ hwrite, run_add 1 hrun, run_one hread]
  · rw [hresponse, hrdata₂, hrdata₁]
  · rw [hindex, hindex₂, hindex₁]
    show k + 1 + between.length + 1 = k + between.length + 2
    omega

end Sys2Proof.Machine
end

section
/-! ## Proofs for `spec/30_encoding.md`: the decoder and the encoder (R61 to R66), the placed command, and the three
accesses by which a host issues a command (R60, R68). -/

namespace Sys2Proof

/-! ### The decoder and the encoder (R61 to R66) -/

/-- The decoder reads back the two words of a command (R60). -/
theorem decodeWords_encode (i : Instr) : decodeWords (encode i).1 (encode i).2 = i := by
  show decodeOp (opField i.commandWord) i.operand = i
  rw [opField_op, decodeOp_op]

theorem encodeBytes_length (i : Instr) : (encodeBytes i).length = 16 := by
  rw [encodeBytes, List.length_append, leBytes_length, leBytes_length]

/-- An `op` value extended to a command word leaves the reserved bits zero (R61). -/
theorem commandWordWellFormed_setWidth (op : BitVec 2) : commandWordWellFormed (op.setWidth 64) = true := by
  revert op
  decide

/-- The `op` field of a command word is the word under the mask 3 of opcode_table.json (R64). -/
theorem opField_eq_masked (c : Word) : opField c = (c &&& 3#64).setWidth 2 := by
  unfold opField
  ext i hi
  obtain rfl | rfl : i = 0 ∨ i = 1 := by omega
  · simp
  · simp

/-- A word selects by its two low bits alone (R64, R65). -/
theorem decodeWords_of_masked {c k : Word} (h : c &&& 3#64 = k) (v : Word) :
    decodeWords c v = decodeOp (k.setWidth 2) v := by
  rw [decodeWords, opField_eq_masked, h]

theorem decodeWords_masked (c v : Word) : decodeWords (c &&& 3#64) v = decodeWords c v := by
  have hmask : c &&& 3#64 &&& 3#64 = c &&& 3#64 := by rw [BitVec.and_assoc, BitVec.and_self]
  rw [decodeWords_of_masked hmask, decodeWords_of_masked rfl]

/-- Bytes that are no shorter than a command decode, and the bytes after the command are left (log entry 3). -/
theorem decode_of_length {bytes : List Byte} (h : 16 ≤ bytes.length) :
    ∃ i, decode bytes = .ok (i, bytes.drop 16) := by
  unfold decode
  rw [if_neg (by omega), if_neg (by omega)]
  exact ⟨_, rfl⟩

/-- Settles O57: the bytes of a command decode as its two words, which read back as the command. -/
theorem decodeOfEncodedCommandIsTheCommand : Obligations.DecodeOfEncodedCommandIsTheCommand := by
  refine fun i tail => ⟨?_, encodeBytes_length i, commandWordWellFormed_setWidth i.op⟩
  rw [encodeBytes, decode_bytes, decodeWords_encode]

/-- Settles O58: the `op` field is the masked command word, and 16 bytes are two words. -/
theorem everyCommandWordDecodesByItsLowBits : Obligations.EveryCommandWordDecodesByItsLowBits :=
  ⟨fun c v => ⟨(decodeWords_of_masked · v), (decodeWords_of_masked · v), (decodeWords_of_masked · v),
    (decodeWords_of_masked · v), decodeWords_masked c v⟩, fun _ => decode_of_length⟩

/-- Settles O59: the decoder run on the written-out words and bytes. -/
theorem writtenOutWordsDecode : Obligations.WrittenOutWordsDecode := by
  unfold Obligations.WrittenOutWordsDecode
  decide

end Sys2Proof

namespace Sys2Proof.Machine

/-! ### The placed command -/

/-- Settles O5: the placed write of `WDATA` runs the command whose `op` value `placeCommand` put in `CTRL.OP`. -/
theorem placedCommandRunsNext : Obligations.PlacedCommandRunsNext := by
  intro s nbits w i hi
  rw [decodeTableWord_eq] at hi
  obtain rfl := Option.some.inj hi
  rw [decodeWords, op_of_decodeOp]
  exact step_wdata (s := s.withFetchWord nbits w) rfl

/-! ### A command that a host issues: configure, write, read (R60, R68) -/

/-- An operation makes its result ready (R123). -/
theorem exec_readies_result {i : Instr} {s t : State} (h : exec i s = .next t) (hi : i.op ≠ 0b00#2) :
    t.rrdy = true := by
  obtain ⟨r, fs, rfl, ⟨hnone, -⟩ | ⟨-, hr, -⟩⟩ := exec_effect h
  · exact absurd hnone hi
  · simp [hr]

/-- No instruction raises `UNR`, which belongs to the read of `RDATA` (R145). -/
theorem exec_keeps_unr {i : Instr} {s t : State} (h : exec i s = .next t) : t.unr = s.unr := by
  obtain ⟨r, fs, rfl, ⟨-, -, rfl⟩ | ⟨-, -, rfl | rfl | rfl⟩⟩ := exec_effect h <;> simp

/-- No instruction answers a read. -/
theorem exec_keeps_responses {i : Instr} {s t : State} (h : exec i s = .next t) : t.responses = s.responses := by
  obtain ⟨r, fs, rfl, -⟩ := exec_effect h
  rfl

theorem IsResultOf.op_ne_none {op : BitVec 2} {v r : Word} (h : IsResultOf op v r) : op ≠ 0b00#2 := by
  rcases h with ⟨rfl, -⟩ | ⟨rfl, -⟩ | ⟨rfl, -⟩ <;> decide

/-- A read of `RDATA` with a result ready takes it and raises nothing (R124). -/
theorem readRdata_of_ready {s : State} (h : s.rrdy = true) : readRdata s = (s.rdata, s.clearReady) := by
  rw [readRdata, if_pos h]

/-- Format S (R62): the operand that carries a sample in its low half reads as that sample. -/
theorem sampleOperand_setWidth (w : Sample) : sampleOperand (w.setWidth 64) = w := by
  unfold sampleOperand
  ext i hi
  simp [hi, show i < 64 by omega]

/-- A write of a command word to `CTRL` selects the command's function (R121). -/
theorem step_configure {s : State} {m : Nat} {i : Instr} {rest : List HostStep}
    (hp : s.pending = wr m .ctrl (encode i).1 :: rest) : step s = .next ((s.takeStep rest).setOp i.op) := by
  rw [step_regWrite hp, ← opField_op]
  rfl

/-- The write of an operation's operand to `WDATA`, where its function is selected, leaves its result ready (R123). -/
theorem step_write_operand {s : State} {m : Nat} {i : Instr} {r : Word} {rest : List HostStep}
    (hr : IsResultOf i.op i.operand r) (hop : s.op = i.op) (hp : s.pending = wr m .wdata (encode i).2 :: rest) :
    ∃ t, step s = .next t ∧ t.rdata = r ∧ t.rrdy = true ∧ t.unr = s.unr ∧ t.responses = s.responses ∧
      t.pending = rest := by
  obtain ⟨t, hexec⟩ := exec_next (decodeOp i.op i.operand) (s.takeStep rest)
  have hunr := exec_keeps_unr hexec
  have hresponses := exec_keeps_responses hexec
  obtain ⟨hpending, -⟩ := exec_keeps_host hexec
  refine ⟨t, ?_, exec_leaves_result hr hexec, exec_readies_result hexec ?_, hunr, hresponses, hpending⟩
  · rw [step_wdata hp, hop]
    exact hexec
  · rw [op_of_decodeOp]
    exact hr.op_ne_none

/-- The read of a ready result (R124). -/
theorem step_read_ready {s : State} {m : Nat} {rest : List HostStep} (hr : s.rrdy = true)
    (hp : s.pending = rd m .rdata :: rest) :
    step s = .next ((s.takeStep rest).clearReady.respond m s.rdata) := by
  rw [step_regRead hp]
  show Host.Outcome.next ((readRdata (s.takeStep rest)).2.respond m (readRdata (s.takeStep rest)).1) = _
  rw [readRdata_of_ready (s := s.takeStep rest) hr, State.takeStep_rdata]

/-- An issued operation completes in its three steps and returns its result to the master that issued it. -/
theorem run_issue {i : Instr} {r : Word} (hr : IsResultOf i.op i.operand r) {s : State} {m : Nat}
    {rest : List HostStep} (hp : s.pending = issue m i ++ rest) :
    ∃ t, Sys2Proof.core.run 3 s = .next t ∧ t.pending = rest ∧
      t.responses = { master := m, value := r } :: s.responses ∧ t.rrdy = false ∧ t.unr = s.unr := by
  have hconfigure := step_configure (rest := wr m .wdata (encode i).2 :: rd m .rdata :: rest) hp
  obtain ⟨u, hwrite, hrdata, hready, hunr, hresponses, hpending⟩ := step_write_operand
    (s := (s.takeStep (wr m .wdata _ :: rd m .rdata :: rest)).setOp i.op) hr rfl rfl
  have hread := step_read_ready hready hpending
  refine ⟨(u.takeStep rest).clearReady.respond m u.rdata, ?_, rfl, ?_, rfl, hunr⟩
  · rw [run_succ hconfigure, run_succ hwrite, run_one hread]
  · rw [State.respond_responses, hrdata]
    exact congrArg _ hresponses

/-- Settles O60: each of the three pseudo-instructions issues an operation. -/
theorem issuedCommandReturnsItsResult : Obligations.IssuedCommandReturnsItsResult := by
  refine fun s m x w rest => ⟨run_issue (i := .encode x) (.inl ⟨rfl, rfl⟩) rfl,
    run_issue (i := .decode (w.setWidth 64)) (.inr (.inl ⟨rfl, ?_⟩)) rfl,
    run_issue (i := .normalize x) (.inr (.inr ⟨rfl, rfl⟩)) rfl⟩
  exact congrArg Exact.decode (sampleOperand_setWidth w).symm

end Sys2Proof.Machine
end

section
/-! ## Proofs for `spec/40_codec.md`: what an operation delivers and raises (R80 to R84, R90, R91), the reduction (R81),
and the arithmetic of `ENCODE` and `DECODE` (R86, R87, R92 to R96). -/

namespace Sys2Proof.Exact

/-! ### The flags of `encode` (R83) -/

theorem encode_of_not_isFinite {x : Word} (h : isFinite x = false) : encode x = (0x00000000#32, [.nv]) := by
  rw [encode, if_pos h]

theorem encode_flags_of_isFinite {x : Word} (h : isFinite x = true) :
    (encode x).2 = if |val x| ≤ piF then [] else [.rng] := by
  rw [encode, if_neg (by simp [h])]

/-- Which flags `encode` raises (R83). -/
theorem mem_encode_flags (x : Word) (f : Flag) :
    f ∈ (encode x).2 ↔
      (f = .nv ∧ isFinite x = false) ∨
        (f = .rng ∧ isFinite x = true ∧ piF < |val x|) := by
  cases hf : isFinite x with
  | false => rw [encode_of_not_isFinite hf]; simp
  | true =>
    rw [encode_flags_of_isFinite hf]
    split_ifs with hr
    · simp [hr]
    · simp [not_le.1 hr]

end Sys2Proof.Exact

namespace Sys2Proof.Machine

/-! ### What an operation delivers and raises (R80) -/

/-- The word a command delivers in `RDATA`, if any, by the spec's formulas over the rationals. -/
def resultWord : Instr → Option Word
  | .none _ => none
  | .encode x => some ((Exact.encode x).1.signExtend 64)
  | .decode v => some (Exact.decode (v.extractLsb' 0 32))
  | .normalize x => some (Exact.normalize x).1

/-- The flags a command raises, by the spec's formulas over the rationals. -/
def raisedFlags : Instr → List Flag
  | .none _ => [.ill]
  | .encode x => (Exact.encode x).2
  | .decode _ => []
  | .normalize x => (Exact.normalize x).2

/-- `ENCODE` (R83) raises the spec's flags. -/
theorem encodeFlags_exact (x : Word) : encodeFlags x = (Exact.encode x).2 := by
  unfold encodeFlags Exact.encode
  simp only [isFinite_exact, inRange_exact, decide_eq_true_eq, Bool.not_eq_true']
  split_ifs <;> rfl

/-- `NORMALIZE` (R101) raises the spec's flags. -/
theorem normalizeFlags_exact (x : Word) : normalizeFlags x = (Exact.normalize x).2 := by
  unfold normalizeFlags Exact.normalize
  simp only [isFinite_exact, Bool.not_eq_true']
  split_ifs <;> rfl

/-- Every command answers the next state in which its result stands and its flags are raised, whatever the state. -/
theorem exec_eq (i : Instr) (s : State) :
    exec i s = .next
      { s with rdata := (resultWord i).getD s.rdata, rrdy := s.rrdy || (resultWord i).isSome,
               nv := s.nv || decide (Flag.nv ∈ raisedFlags i), rng := s.rng || decide (Flag.rng ∈ raisedFlags i),
               ill := s.ill || decide (Flag.ill ∈ raisedFlags i), unr := s.unr || decide (Flag.unr ∈ raisedFlags i),
               faultRecorded := s.faultRecorded || !(raisedFlags i).isEmpty } := by
  cases i with
  | none v => simp [exec, execNone, State.raise, resultWord, raisedFlags]
  | encode x =>
    show Host.Outcome.next ((s.deliver (sampleResult (encodeSample x))).raiseAll (encodeFlags x)) = _
    rw [State.raiseAll_eq, encodeSample_exact, encodeFlags_exact]
    simp only [resultWord, Option.isSome_some, Bool.or_true]
    rfl
  | decode v =>
    show Host.Outcome.next (s.deliver (decodeSample (sampleOperand v))) = _
    rw [decodeSample_exact]
    simp [State.deliver, sampleOperand, resultWord, raisedFlags]
  | normalize x =>
    show Host.Outcome.next ((s.deliver (normalizeWord x)).raiseAll (normalizeFlags x)) = _
    rw [State.raiseAll_eq, normalizeWord_exact, normalizeFlags_exact]
    simp only [resultWord, Option.isSome_some, Bool.or_true]
    rfl

/-- `ENCODE` (R82): the spec's sample, ready, and its flags `NV` and `RNG`; all else is kept. -/
theorem exec_encode (x : Word) (s : State) :
    exec (.encode x) s = .next
      { s with rdata := (Exact.encode x).1.signExtend 64, rrdy := true,
               nv := s.nv || decide (Flag.nv ∈ (Exact.encode x).2),
               rng := s.rng || decide (Flag.rng ∈ (Exact.encode x).2),
               faultRecorded := s.faultRecorded || !(Exact.encode x).2.isEmpty } := by
  have hill : Flag.ill ∉ (Exact.encode x).2 := by simp [Exact.mem_encode_flags]
  have hunr : Flag.unr ∉ (Exact.encode x).2 := by simp [Exact.mem_encode_flags]
  rw [exec_eq, raisedFlags, decide_eq_false hill, decide_eq_false hunr]
  simp only [resultWord, Option.isSome_some, Bool.or_true, Bool.or_false]
  rfl

/-- `DECODE` (R90, R91): the spec's angle, ready; all else is kept. -/
theorem exec_decode (v : Word) (s : State) :
    exec (.decode v) s = .next { s with rdata := Exact.decode (v.extractLsb' 0 32), rrdy := true } := by
  simp [exec_eq, resultWord, raisedFlags]

/-! ### The statements about what is delivered and raised -/

/-- Settles O21: the machine's sample and flags are those of the spec's `encode`. -/
theorem encodeDeliversTheExactSample : Obligations.EncodeDeliversTheExactSample :=
  fun x s => ⟨_, exec_encode x s, rfl⟩

/-- Settles O22: the machine's angle is that of the spec's `decode`. -/
theorem decodeDeliversTheExactAngle : Obligations.DecodeDeliversTheExactAngle := exec_decode

/-- Settles O24: `NV` asks for an operand that is not finite and `RNG` for one that is. -/
theorem encodeFlagsExactly : Obligations.EncodeFlagsExactly := by
  intro x s
  refine ⟨_, exec_encode x s, rfl, ?_, ?_, rfl, rfl, ?_, fun nv rng ill unr => ⟨_, exec_encode x _, rfl⟩⟩
  · simp [Exact.mem_encode_flags]
  · simp [Exact.mem_encode_flags]
  · intro hnv hrng
    simp +contextual [Exact.mem_encode_flags, hnv, hrng]

/-- Settles O30: `resultWord` and `raisedFlags` do not look at the state. -/
theorem resultAndFlagsDependOnCommandAlone : Obligations.ResultAndFlagsDependOnCommandAlone :=
  fun i => ⟨resultWord i, raisedFlags i, fun s => ⟨_, exec_eq i s, rfl⟩⟩

/-- Settles O25: such a word is not finite. -/
theorem encodeNonFiniteDeliversZero : Obligations.EncodeNonFiniteDeliversZero := by
  intro x s hx
  have hf : Exact.isFinite x = false := by rw [Exact.isFinite, hx]; rfl
  refine ⟨_, exec_encode x s, ?_, ?_⟩
  · simp [Exact.encode_of_not_isFinite hf]
  · simp [Exact.encode_of_not_isFinite hf]

/-- Settles O26: `DECODE` writes `RDATA` and `RRDY` only. -/
theorem decodeRaisesNoFlag : Obligations.DecodeRaisesNoFlag :=
  fun v s => ⟨_, exec_decode v s, rfl, fun f => by cases f <;> rfl⟩

end Sys2Proof.Machine

namespace Sys2Proof.Exact

/-! ### The reduction (R81) -/

theorem reduce_eq_self_iff (v : ℚ) : reduce v = v ↔ -piC < v ∧ v ≤ piC :=
  ⟨fun h => h ▸ reduce_mem v, fun h => reduce_id h.1 h.2⟩

/-- The reduction is odd but where it gives the closed end of its interval. -/
theorem reduce_neg {v : ℚ} (h : reduce v ≠ piC) : reduce (-v) = -reduce v := by
  obtain ⟨hlo, hhi⟩ := reduce_mem v
  have hlt : reduce v < piC := lt_of_le_of_ne hhi h
  refine reduce_unique (n := ⌊(piC - v) / twoPiC⌋) (by linarith) (by linarith) ?_
  rw [reduce_eq]
  push_cast
  ring

/-- An odd multiple of `PI_C` is reduced to `PI_C`. -/
theorem reduce_eq_piC {v : ℚ} (n : ℤ) (h : v = piC + n * twoPiC) : reduce v = piC :=
  reduce_unique (n := n) (by linarith [piC_pos]) le_rfl (by rw [h]; ring)

/-! ### The integer of `encode` (R82, R86) -/

theorem abs_encodedAngle_le (x : Word) : |encodedAngle x| ≤ piC := by
  unfold encodedAngle
  split_ifs with h
  · exact h.trans piF_lt_piC.le
  · exact abs_reduce_le _

/-- The angle converted is that of the operand, but for whole periods. -/
theorem encodedAngle_congr (x : Word) : ∃ n : ℤ, val x = encodedAngle x + n * twoPiC := by
  unfold encodedAngle
  split_ifs with h
  · exact ⟨0, by simp⟩
  · exact ⟨_, by rw [reduce_eq, sub_add_cancel]⟩

theorem encodedAngle_of_inRange {x : Word} (h : |val x| ≤ piF) : encodedAngle x = val x := if_pos h

theorem encodedInteger_eq (x : Word) : encodedInteger x = rintEven (encodedAngle x / unit) := by
  rw [encodedInteger, scaled]

/-- An angle of at most `PI_C` is at most 2^31 sample steps. -/
theorem abs_div_unit_le {y : ℚ} (h : |y| ≤ piC) : |y / unit| ≤ 2 ^ 31 := by
  rw [abs_div, abs_of_pos unit_pos, div_le_iff₀ unit_pos, unit_mul]
  exact h

/-- Below 2^31, the tie value 2^31 - 1/2 is the least that rounds to 2^31. -/
theorem rintEven_eq_top_iff {q : ℚ} (h : q ≤ 2 ^ 31) : rintEven q = 2 ^ 31 ↔ 2 ^ 31 - 1 / 2 ≤ q := by
  constructor
  · intro hk
    have hnear := (abs_le.1 (rintEven_near q)).2
    rw [hk] at hnear
    push_cast at hnear
    linarith
  · intro hq
    have htie : rintEven (2 ^ 31 - 1 / 2) = 2 ^ 31 := by norm_num [rintEven]
    have hhi : rintEven q ≤ 2 ^ 31 := rintEven_le_of_le (by push_cast; exact h)
    have hlo := rintEven_mono hq
    omega

theorem rintEven_eq_bottom_iff {q : ℚ} (h : -2 ^ 31 ≤ q) : rintEven q = -2 ^ 31 ↔ q ≤ -(2 ^ 31 - 1 / 2) := by
  rw [← neg_eq_iff_eq_neg, ← rintEven_neg, rintEven_eq_top_iff (by linarith), le_neg]

theorem encodedInteger_mem (x : Word) : -2 ^ 31 ≤ encodedInteger x ∧ encodedInteger x ≤ 2 ^ 31 := by
  obtain ⟨hlo, hhi⟩ := abs_le.1 (abs_div_unit_le (abs_encodedAngle_le x))
  rw [encodedInteger_eq]
  exact ⟨le_rintEven_of_le (by push_cast; exact hlo), rintEven_le_of_le (by push_cast; exact hhi)⟩

theorem encodedInteger_eq_top_iff (x : Word) :
    encodedInteger x = 2 ^ 31 ↔ (2 ^ 31 - 1 / 2) * unit ≤ encodedAngle x := by
  have hhi := (abs_le.1 (abs_div_unit_le (abs_encodedAngle_le x))).2
  rw [encodedInteger_eq, rintEven_eq_top_iff hhi, le_div_iff₀ unit_pos]

theorem encodedInteger_eq_bottom_iff (x : Word) :
    encodedInteger x = -2 ^ 31 ↔ encodedAngle x ≤ -(2 ^ 31 - 1 / 2) * unit := by
  have hlo := (abs_le.1 (abs_div_unit_le (abs_encodedAngle_le x))).1
  rw [encodedInteger_eq, rintEven_eq_bottom_iff hlo, div_le_iff₀ unit_pos]

/-- Of the integers `encode` can give, only 2^31 is saturated (R86). -/
theorem sat32_of_mem {k : ℤ} (hlo : -2 ^ 31 ≤ k) (hhi : k ≤ 2 ^ 31) :
    sat32 k = if k = 2 ^ 31 then 2 ^ 31 - 1 else k := by
  unfold sat32
  split_ifs with h <;> omega

theorem sat32_mono {j k : ℤ} (h : j ≤ k) : sat32 j ≤ sat32 k := by
  unfold sat32; omega

/-- The sample holds the saturated integer. -/
theorem toInt_ofInt_sat32 (k : ℤ) : (BitVec.ofInt 32 (sat32 k)).toInt = sat32 k := by
  rw [BitVec.toInt_ofInt]
  apply Int.bmod_eq_of_le <;> unfold sat32 <;> omega

theorem encode_sample {x : Word} (h : isFinite x = true) :
    (encode x).1 = BitVec.ofInt 32 (sat32 (encodedInteger x)) := by
  rw [encode, if_neg (by simp [h])]

/-- The integer that `encode` delivers for a finite operand. -/
theorem toInt_encode {x : Word} (h : isFinite x = true) : (encode x).1.toInt = sat32 (encodedInteger x) := by
  rw [encode_sample h, toInt_ofInt_sat32]

/-- Its sign extension (R37) holds the same integer. -/
theorem toInt_encode_signExtend {x : Word} (h : isFinite x = true) :
    ((encode x).1.signExtend 64).toInt = sat32 (encodedInteger x) := by
  rw [BitVec.toInt_signExtend_of_le (by norm_num), toInt_encode h]


/-! ### The rounding of `encode` never ties (R87) -/

/-- A tie would make the operand an odd multiple of `PI_N` times a power of two, which no binary64 value is. -/
theorem scaled_encodedAngle_ne_tie (x : Word) (k : ℤ) : encodedAngle x * 2 ^ 31 / piC ≠ (k : ℚ) + 1 / 2 := by
  intro htie
  rw [div_eq_iff piC_pos.ne'] at htie
  obtain ⟨n, hn⟩ := encodedAngle_congr x
  have hval : val x = ((2 * k + 1 + n * 2 ^ 33 : ℤ) : ℚ) * 0xC90FDAA22168C235 * 2 ^ (-94 : ℤ) := by
    rw [hn, twoPiC]
    rw [piC] at htie ⊢
    push_cast
    linarith
  have := val_ne_multiple hval
  omega

/-! ### `encode` inside the precondition (R87) -/

theorem encodedInteger_negated {x : Word} (h : |val x| ≤ piF) :
    encodedInteger (x ^^^ 0x8000000000000000#64) = -encodedInteger x := by
  have h' : |val (x ^^^ 0x8000000000000000#64)| ≤ piF := by rwa [val_negated, abs_neg]
  rw [encodedInteger_eq, encodedInteger_eq, encodedAngle_of_inRange h, encodedAngle_of_inRange h', val_negated,
    neg_div, rintEven_neg]

theorem encodedInteger_mono {x x2 : Word} (h : |val x| ≤ piF) (h2 : |val x2| ≤ piF) (hle : val x ≤ val x2) :
    encodedInteger x ≤ encodedInteger x2 := by
  rw [encodedInteger_eq, encodedInteger_eq, encodedAngle_of_inRange h, encodedAngle_of_inRange h2]
  exact rintEven_mono (div_le_div_of_nonneg_right hle unit_pos.le)

/-- The integer of `encode` stands for an angle within half a sample step of the one converted. -/
theorem encodedInteger_near (x : Word) : |(encodedInteger x : ℚ) * unit - encodedAngle x| ≤ unit / 2 := by
  have hnear := rintEven_near (encodedAngle x / unit)
  rw [← encodedInteger_eq] at hnear
  have hscale : (encodedInteger x : ℚ) * unit - encodedAngle x =
      (encodedInteger x - encodedAngle x / unit) * unit := by
    rw [sub_mul, div_mul_cancel₀ _ unit_pos.ne']
  rw [hscale, abs_mul, abs_of_pos unit_pos]
  calc |(encodedInteger x : ℚ) - encodedAngle x / unit| * unit ≤ 1 / 2 * unit :=
        mul_le_mul_of_nonneg_right hnear unit_pos.le
    _ = unit / 2 := by ring

/-- The delivered sample stands for an angle within half a sample step, or a whole one where it was saturated (R95). -/
theorem saturated_near (x : Word) :
    |(sat32 (encodedInteger x) : ℚ) * unit - encodedAngle x| ≤
      if encodedInteger x = 2 ^ 31 then unit else unit / 2 := by
  obtain ⟨hlo, hhi⟩ := encodedInteger_mem x
  rw [sat32_of_mem hlo hhi]
  split_ifs with htop
  · have hge := (encodedInteger_eq_top_iff x).1 htop
    have hle := (abs_le.1 (abs_encodedAngle_le x)).2
    rw [← unit_mul] at hle
    have := unit_pos
    rw [abs_le]
    push_cast
    constructor <;> linarith
  · exact encodedInteger_near x

/-! ### `decode` (R90, R92) -/

theorem decode_eq (w : Sample) : decode w = RNE (w.toInt * unit) := by
  rw [decode, unit, mul_div_assoc]

theorem abs_toInt_mul_unit_le (w : Sample) : |(w.toInt : ℚ) * unit| ≤ piC := by
  rw [unit, ← mul_div_assoc]
  exact Machine.abs_sample_angle_le w

theorem val_decode_near (w : Sample) : |val (decode w) - w.toInt * unit| ≤ 1 / 2 ^ 52 := by
  rw [decode_eq]
  exact (RNE_near (abs_toInt_mul_unit_le w)).1

theorem isFinite_decode (w : Sample) : isFinite (decode w) = true := by
  rw [decode_eq]
  exact (RNE_near (abs_toInt_mul_unit_le w)).2

theorem abs_val_decode_le (w : Sample) : |val (decode w)| ≤ piF := by
  rw [decode_eq]
  exact abs_val_RNE_le (abs_toInt_mul_unit_le w)

theorem decode_zero : decode 0#32 = 0x0000000000000000#64 := by
  simp [decode, RNE]

theorem toInt_ne_zero {w : Sample} (h : w ≠ 0#32) : w.toInt ≠ 0 :=
  fun h0 => h (BitVec.eq_of_toInt_eq h0)

/-- A sample other than 0 stands for an angle of at least one step, which is far above the subnormals. -/
theorem normal_decode {w : Sample} (h : w ≠ 0#32) :
    1 ≤ Machine.exponentField (decode w) ∧ Machine.exponentField (decode w) ≤ 2046 := by
  have hone : (1 : ℚ) ≤ |(w.toInt : ℚ)| := by exact_mod_cast Int.one_le_abs (toInt_ne_zero h)
  rw [decode_eq]
  refine normal_of_ge (abs_toInt_mul_unit_le w) ?_
  rw [abs_mul, abs_of_pos unit_pos]
  calc (1 : ℚ) / 2 ^ 61 ≤ 1 * unit := by norm_num [unit, piC]
    _ ≤ |(w.toInt : ℚ)| * unit := mul_le_mul_of_nonneg_right hone unit_pos.le

theorem decode_neg {w : Sample} (h0 : w ≠ 0#32) (hmin : w ≠ 0x80000000#32) :
    decode (-w) = decode w ^^^ 0x8000000000000000#64 := by
  have hne : (w.toInt : ℚ) * unit ≠ 0 := mul_ne_zero (by exact_mod_cast toInt_ne_zero h0) unit_pos.ne'
  rw [decode_eq, decode_eq, BitVec.toInt_neg_of_ne_intMin hmin, Int.cast_neg, neg_mul, RNE_neg hne]

/-- Two samples stand for angles at least one step apart, and the rounding moves each by far less. -/
theorem val_decode_strictMono {w w2 : Sample} (h : w.toInt < w2.toInt) : val (decode w) < val (decode w2) := by
  have hstep : (w.toInt : ℚ) * unit + unit ≤ w2.toInt * unit := by
    have hint : (w.toInt : ℚ) + 1 ≤ w2.toInt := by exact_mod_cast h
    calc (w.toInt : ℚ) * unit + unit = (w.toInt + 1) * unit := by ring
      _ ≤ w2.toInt * unit := mul_le_mul_of_nonneg_right hint unit_pos.le
  have hsmall : (2 : ℚ) / 2 ^ 52 < unit := by norm_num [unit, piC]
  have h1 := (abs_le.1 (val_decode_near w)).2
  have h2 := (abs_le.1 (val_decode_near w2)).1
  linarith

/-! ### The two round trips (R94, R95) -/

/-- `decode` moves the angle of a sample by far less than half a step, so `encode` rounds back to the sample. -/
theorem encodedInteger_decode (w : Sample) : encodedInteger (decode w) = w.toInt := by
  rw [encodedInteger_eq, encodedAngle_of_inRange (abs_val_decode_le w)]
  apply rintEven_eq_of_near
  have hscale : val (decode w) / unit - w.toInt = (val (decode w) - w.toInt * unit) / unit := by
    rw [sub_div, mul_div_cancel_right₀ _ unit_pos.ne']
  rw [hscale, abs_div, abs_of_pos unit_pos, div_lt_iff₀ unit_pos]
  calc |val (decode w) - w.toInt * unit| ≤ 1 / 2 ^ 52 := val_decode_near w
    _ < 1 / 2 * unit := by norm_num [unit, piC]

/-- A sample is in range, so saturation keeps it. -/
theorem sat32_toInt (w : Sample) : sat32 w.toInt = w.toInt := by
  have hlo := BitVec.le_toInt w
  have hhi := BitVec.toInt_lt (x := w)
  unfold sat32
  omega

theorem encode_decode (w : Sample) : encode (decode w) = (w, []) := by
  refine Prod.ext ?_ ?_
  · rw [encode_sample (isFinite_decode w), encodedInteger_decode, sat32_toInt, BitVec.ofInt_toInt]
  · rw [encode_flags_of_isFinite (isFinite_decode w), if_pos (abs_val_decode_le w)]

theorem extractLsb'_signExtend (w : Sample) : (w.signExtend 64).extractLsb' 0 32 = w := by
  ext i hi
  simp [BitVec.getElem_signExtend, hi, show i < 64 by omega]

theorem val_decode_encode_near {x : Word} (hf : isFinite x = true) (h : |val x| ≤ piF) :
    |val (decode (encode x).1) - val x| ≤ (if encodedInteger x = 2 ^ 31 then unit else unit / 2) + 1 / 2 ^ 52 := by
  have hdecode := val_decode_near (encode x).1
  have hencode := saturated_near x
  rw [toInt_encode hf] at hdecode
  rw [encodedAngle_of_inRange h] at hencode
  calc |val (decode (encode x).1) - val x|
      ≤ |val (decode (encode x).1) - sat32 (encodedInteger x) * unit| +
          |sat32 (encodedInteger x) * unit - val x| := abs_sub_le _ _ _
    _ ≤ 1 / 2 ^ 52 + (if encodedInteger x = 2 ^ 31 then unit else unit / 2) := add_le_add hdecode hencode
    _ = _ := add_comm _ _

end Sys2Proof.Exact

namespace Sys2Proof.Machine

/-! ### The rounding on the machine's integers (R82, R87) -/

/-- The angle that the machine converts, in quanta (R82). -/
def encodedQuanta (x : Word) : ℤ := if |Exact.val x| ≤ Exact.piF then val x else reduce (val x)

theorem encodedQuanta_exact (x : Word) : (encodedQuanta x : ℚ) / 2 ^ 1074 = Exact.encodedAngle x := by
  unfold encodedQuanta Exact.encodedAngle
  split_ifs
  · exact val_quanta x
  · rw [reduce_quanta, val_quanta]

theorem encodeSample_of_isFinite {x : Word} (h : Exact.isFinite x = true) :
    encodeSample x = quantize (encodedQuanta x) := by
  unfold encodeSample encodedQuanta
  simp only [isFinite_exact, inRange_exact, h, decide_eq_true_eq, Bool.not_true, Bool.false_eq_true, if_false]
  split_ifs <;> rfl

theorem scaled_encodedQuanta (x : Word) :
    ((encodedQuanta x * 2147483648 : ℤ) : ℚ) / (piC : ℚ) = Exact.encodedAngle x * 2 ^ 31 / Exact.piC := by
  have hq : (2 : ℚ) ^ 1074 ≠ 0 := by positivity
  rw [← encodedQuanta_exact, ← piC_quanta, div_mul_eq_mul_div, div_div_div_cancel_right₀ hq]
  push_cast
  norm_num

/-- A remainder of half the denominator is a tie. -/
theorem fraction_of_half_remainder {num : ℤ} {den : ℕ} (hd : 0 < den) (h : 2 * (num % den) = den) :
    (num : ℚ) / den = ((num / den : ℤ) : ℚ) + 1 / 2 := by
  have hd' : (den : ℚ) ≠ 0 := by exact_mod_cast hd.ne'
  have hnum : (num : ℚ) = den * ((num / den : ℤ) : ℚ) + ((num % den : ℤ) : ℚ) := by
    exact_mod_cast (Int.mul_ediv_add_emod num den).symm
  have hrem : (2 : ℚ) * ((num % den : ℤ) : ℚ) = den := by exact_mod_cast h
  rw [div_eq_iff hd']
  linarith

/-- Without a tie `rint_even` (R18) needs no rule for ties. -/
theorem rintEven_of_no_tie {num : ℤ} {den : ℕ} (h : 2 * (num % den) ≠ den) :
    rintEven num den = if 2 * (num % den) < den then num / den else num / den + 1 := by
  unfold rintEven
  split_ifs <;> omega

theorem encodedQuanta_no_tie (x : Word) : 2 * ((encodedQuanta x * 2147483648) % (piC : ℤ)) ≠ (piC : ℤ) := by
  intro h
  have htie := fraction_of_half_remainder piC_pos h
  rw [scaled_encodedQuanta] at htie
  exact Exact.scaled_encodedAngle_ne_tie x _ htie

/-! ### The words that the operations leave in `RDATA` -/

/-- `ENCODE` of a finite operand completes and leaves the saturated integer. -/
theorem exec_encode_toInt {x : Word} (h : Exact.isFinite x = true) (s : State) :
    ∃ t, exec (.encode x) s = .next t ∧ t.rdata.toInt = Exact.sat32 (Exact.encodedInteger x) :=
  ⟨_, exec_encode x s, Exact.toInt_encode_signExtend h⟩

/-! ### The statements about the arithmetic -/

/-- Settles O42: the interval and the whole periods determine the reduction, and the machine's is the same. -/
theorem reductionIsExact : Obligations.ReductionIsExact := by
  refine ⟨fun v => ?_, ?_, ?_, ?_, ?_, reduce_quanta⟩
  · obtain ⟨hlo, hhi⟩ := Exact.reduce_mem v
    exact ⟨hlo, hhi, Exact.reduce_eq v, Exact.reduce_eq_self_iff v, Exact.reduce_neg⟩
  · exact Exact.reduce_eq_piC 0 (by simp)
  · exact Exact.reduce_eq_piC (-1) (by unfold Exact.twoPiC; push_cast; ring)
  · exact Exact.reduce_id (by linarith [Exact.piC_pos]) Exact.piC_pos.le
  · exact Exact.reduce_eq_piC 1 (by unfold Exact.twoPiC; push_cast; ring)

/-- Settles O43: the scaled angle lies within 2^31 steps, and the ties at both ends round outward. -/
theorem encodeSaturatesOnlyAtTheTop : Obligations.EncodeSaturatesOnlyAtTheTop := by
  intro x hf
  obtain ⟨hlo, hhi⟩ := Exact.encodedInteger_mem x
  refine ⟨hlo, hhi, Exact.encodedInteger_eq_top_iff x, Exact.encodedInteger_eq_bottom_iff x, fun s => ?_⟩
  rw [← Exact.sat32_of_mem hlo hhi]
  exact exec_encode_toInt hf s

/-- Settles O44: a tie on the integers is one over the rationals, where no operand ties. -/
theorem encodeNeverTies : Obligations.EncodeNeverTies := by
  rintro x y hf rfl
  refine ⟨encodedQuanta_no_tie x, fun s => ⟨_, exec_encode x s, ?_⟩, Exact.scaled_encodedAngle_ne_tie x⟩
  rw [← encodeSample_exact, encodeSample_of_isFinite hf, quantize, rintEven_of_no_tie (encodedQuanta_no_tie x)]
  rfl

/-- Settles O45: the integer is odd in the operand, and only its positive end is saturated. -/
theorem encodeIsOddInsideThePrecondition : Obligations.EncodeIsOddInsideThePrecondition := by
  intro x s hf hr
  obtain ⟨t, ht, htInt⟩ := exec_encode_toInt hf s
  obtain ⟨u, hu, huInt⟩ := exec_encode_toInt ((Exact.isFinite_negated x).trans hf) s
  refine ⟨t, u, ht, hu, ?_⟩
  obtain ⟨hlo, hhi⟩ := Exact.encodedInteger_mem x
  rw [htInt, huInt, Exact.encodedInteger_negated hr, Exact.sat32_of_mem hlo hhi,
    Exact.sat32_of_mem (by omega) (by omega)]
  split_ifs <;> omega

/-- Settles O46: scaling, rounding and saturation are monotone. -/
theorem encodeIsMonotone : Obligations.EncodeIsMonotone := by
  intro x x2 s hf hf2 hr hr2 hle
  obtain ⟨t, ht, htInt⟩ := exec_encode_toInt hf s
  obtain ⟨u, hu, huInt⟩ := exec_encode_toInt hf2 s
  refine ⟨t, u, ht, hu, ?_⟩
  rw [htInt, huInt]
  exact Exact.sat32_mono (Exact.encodedInteger_mono hr hr2 hle)

/-- Settles O47: the facts about the spec's `decode`, which is the machine's. -/
theorem decodeRangeAndShape : Obligations.DecodeRangeAndShape := by
  simp only [Obligations.DecodeRangeAndShape, decodeSample_exact]
  exact ⟨fun w => ⟨fun h => h ▸ Exact.decode_zero, Exact.normal_decode, Exact.abs_val_decode_le w, Exact.decode_neg⟩,
    fun _ _ => Exact.val_decode_strictMono⟩

/-- Settles O48: `encode` of the decoded angle is the sample, with no flag. -/
theorem encodeOfDecodeIsTheSample : Obligations.EncodeOfDecodeIsTheSample := by
  intro v s
  refine ⟨_, _, exec_decode v s, exec_encode _ _, ?_, ?_, fun f => ?_⟩
  · simp only [Exact.encode_decode]
  · simp only [Exact.encode_decode]
    rw [BitVec.toInt_signExtend_of_le (by norm_num), sub_self, abs_zero]
    exact zero_le_one
  · cases f <;> simp [Exact.encode_decode]

/-- Settles O49: the sample is within half a step, or a whole one where it was saturated, and `decode` errs by at most
2^-52. -/
theorem decodeOfEncodeIsWithinHalfAUnit : Obligations.DecodeOfEncodeIsWithinHalfAUnit := by
  intro x s hf hr
  refine ⟨_, _, exec_encode x s, exec_decode _ _, ?_⟩
  simp only [Exact.extractLsb'_signExtend]
  exact Exact.val_decode_encode_near hf hr

set_option maxRecDepth 20000 in
/-- Settles O56: the operations run on the words of R88, R93 and R110. -/
theorem knownValuesOfTheSource : Obligations.KnownValuesOfTheSource := by
  unfold Obligations.KnownValuesOfTheSource
  decide

end Sys2Proof.Machine
end

section
/-! ## Proofs for `spec/41_normalizer.md`: what `NORMALIZE` delivers and raises (R100 to R103), operands out of range
(R104), and the range, the equivalence, the idempotence and the periodicity of its results (R105 to R111). -/

namespace Sys2Proof.Exact

/-! ### The three cases of `normalize` (R100) -/

theorem normalize_of_not_isFinite {x : Word} (h : isFinite x = false) :
    normalize x = (0x7FF8000000000000#64, [.nv]) := by
  rw [normalize, if_pos h]

theorem normalize_of_inRange {x : Word} (hf : isFinite x = true) (h : |val x| ≤ piF) : normalize x = (x, []) := by
  rw [normalize, if_neg (by simp [hf]), if_pos h]

theorem normalize_of_far {x : Word} (hf : isFinite x = true) (h : piF < |val x|) :
    normalize x = (RNE (reduce (val x)), []) := by
  rw [normalize, if_neg (by simp [hf]), if_neg (not_le.2 h)]

/-- Which flags `normalize` raises (R101). -/
theorem mem_normalize_flags (x : Word) (f : Flag) : f ∈ (normalize x).2 ↔ f = .nv ∧ isFinite x = false := by
  cases hf : isFinite x with
  | false => simp [normalize_of_not_isFinite hf]
  | true =>
    rcases le_or_gt |val x| piF with hr | hr
    · simp [normalize_of_inRange hf hr]
    · simp [normalize_of_far hf hr]

/-! ### The reduction of angles (R103, R109) -/

theorem reduce_add_periods (v : ℚ) (k : ℤ) : reduce (v + k * twoPiC) = reduce v := by
  obtain ⟨hlo, hhi⟩ := reduce_mem v
  refine reduce_unique (n := k - ⌊(piC - v) / twoPiC⌋) hlo hhi ?_
  rw [reduce_eq]
  push_cast
  ring

theorem reduce_of_abs_le {v : ℚ} (h : |v| ≤ piF) : reduce v = v := by
  obtain ⟨hlo, hhi⟩ := abs_lt.1 (h.trans_lt piF_lt_piC)
  exact reduce_id hlo hhi.le

/-- An angle in range is moved by no period (R106). -/
theorem periods_of_abs_le {v : ℚ} (h : |v| ≤ piF) : ⌊(piC - v) / twoPiC⌋ = 0 := by
  have hid := reduce_of_abs_le h
  rwa [reduce_eq, sub_eq_self, mul_eq_zero, or_iff_left twoPiC_pos.ne', Int.cast_eq_zero, neg_eq_zero] at hid

/-- In and out of the precondition, `encode` converts the reduced operand. -/
theorem encodedAngle_eq_reduce (x : Word) : encodedAngle x = reduce (val x) := by
  unfold encodedAngle
  split_ifs with h
  · exact (reduce_of_abs_le h).symm
  · rfl

/-! ### The reduction of binary64 operands (R104) -/

theorem reduce_val_congr (x : Word) : ∃ n : ℤ, val x = reduce (val x) + n * twoPiC :=
  encodedAngle_eq_reduce x ▸ encodedAngle_congr x

/-- A binary64 value is no odd multiple of `PI_C`. -/
theorem reduce_val_ne_piC (x : Word) : reduce (val x) ≠ piC := by
  intro h
  obtain ⟨n, hn⟩ := reduce_val_congr x
  rw [h] at hn
  have hval : val x = ((1 + 2 * n : ℤ) : ℚ) * 0xC90FDAA22168C235 * 2 ^ (-62 : ℤ) := by
    rw [hn, twoPiC, piC_eq]
    push_cast
    ring
  have := val_ne_multiple hval
  omega

/-- A binary64 value other than 0 is no whole number of periods. -/
theorem reduce_val_ne_zero {x : Word} (h : val x ≠ 0) : reduce (val x) ≠ 0 := by
  intro h0
  obtain ⟨n, hn⟩ := reduce_val_congr x
  rw [h0, zero_add] at hn
  have hval : val x = ((2 * n : ℤ) : ℚ) * 0xC90FDAA22168C235 * 2 ^ (-62 : ℤ) := by
    rw [hn, twoPiC, piC_eq]
    push_cast
    ring
  exact h (by rw [hval, val_ne_multiple hval]; simp)

theorem val_ne_zero_of_far {x : Word} (h : piF < |val x|) : val x ≠ 0 :=
  abs_pos.1 (piF_pos.trans h)

/-- No binary64 value lies between `PI_F` and `PI_C`: the next multiple of 2^-51 above the one is above the other. -/
theorem piC_lt_of_far {x : Word} (h : piF < |val x|) : piC < |val x| := by
  obtain ⟨j, hj⟩ := far_grid h
  have habs : |val x| = ((|j| : ℤ) : ℚ) / 2 ^ 51 := by
    rw [hj, abs_div, abs_of_pos (by positivity : (0 : ℚ) < 2 ^ 51), Int.cast_abs]
  have hlt : (7074237752028440 : ℤ) < |j| := by
    rw [habs, piF, div_lt_div_iff_of_pos_right (by positivity)] at h
    exact_mod_cast h
  have hnext : (7074237752028441 : ℚ) ≤ ((|j| : ℤ) : ℚ) := by exact_mod_cast hlt
  calc piC < 7074237752028441 / 2 ^ 51 := by norm_num [piC]
    _ ≤ ((|j| : ℤ) : ℚ) / 2 ^ 51 := div_le_div_of_nonneg_right hnext (by positivity)
    _ = |val x| := habs.symm

/-- Out of range the reduced angle is a multiple of 2^-61 other than 0. -/
theorem le_abs_reduce_of_far {x : Word} (h : piF < |val x|) : 1 / 2 ^ 61 ≤ |reduce (val x)| := by
  obtain ⟨j, hj⟩ := far_grid h
  obtain ⟨n, hn⟩ := reduce_val_congr x
  have hgrid : reduce (val x) = ((j * 2 ^ 10 - n * 0xC90FDAA22168C235 : ℤ) : ℚ) / 2 ^ 61 := by
    rw [eq_sub_of_add_eq hn.symm, hj, twoPiC, piC]
    push_cast
    ring
  have hne := reduce_val_ne_zero (val_ne_zero_of_far h)
  rw [hgrid] at hne ⊢
  generalize j * 2 ^ 10 - n * 0xC90FDAA22168C235 = a at hne ⊢
  have ha : a ≠ 0 := by rintro rfl; simp at hne
  have hone : (1 : ℚ) ≤ |(a : ℚ)| := by exact_mod_cast Int.one_le_abs ha
  rw [abs_div, abs_of_pos (by positivity : (0 : ℚ) < 2 ^ 61)]
  exact div_le_div_of_nonneg_right hone (by positivity)

/-! ### The word of `normalize` (R104 to R107) -/

/-- The result is the reduced angle, rounded once. -/
theorem val_normalize_near {x : Word} (hf : isFinite x = true) :
    |val (normalize x).1 - reduce (val x)| ≤ 1 / 2 ^ 52 := by
  rcases le_or_gt |val x| piF with hr | hr
  · rw [normalize_of_inRange hf hr, reduce_of_abs_le hr, sub_self, abs_zero]
    positivity
  · rw [normalize_of_far hf hr]
    exact (RNE_near (abs_reduce_le _)).1

theorem normalize_inRange {x : Word} (hf : isFinite x = true) :
    isFinite (normalize x).1 = true ∧ |val (normalize x).1| ≤ piF := by
  rcases le_or_gt |val x| piF with hr | hr
  · rw [normalize_of_inRange hf hr]
    exact ⟨hf, hr⟩
  · rw [normalize_of_far hf hr]
    exact ⟨(RNE_near (abs_reduce_le _)).2, abs_val_RNE_le (abs_reduce_le _)⟩

theorem normal_normalize_of_far {x : Word} (hf : isFinite x = true) (h : piF < |val x|) :
    1 ≤ Machine.exponentField (normalize x).1 ∧ Machine.exponentField (normalize x).1 ≤ 2046 := by
  rw [normalize_of_far hf h]
  exact normal_of_ge (abs_reduce_le _) (le_abs_reduce_of_far h)

theorem normalize_negated {x : Word} (hf : isFinite x = true) :
    (normalize (x ^^^ 0x8000000000000000#64)).1 = (normalize x).1 ^^^ 0x8000000000000000#64 := by
  have hf' := (isFinite_negated x).trans hf
  have habs : |val (x ^^^ 0x8000000000000000#64)| = |val x| := by rw [val_negated, abs_neg]
  rcases le_or_gt |val x| piF with hr | hr
  · rw [normalize_of_inRange hf hr, normalize_of_inRange hf' (habs.trans_le hr)]
  · rw [normalize_of_far hf hr, normalize_of_far hf' (hr.trans_eq habs.symm), val_negated,
      reduce_neg (reduce_val_ne_piC x), RNE_neg (reduce_val_ne_zero (val_ne_zero_of_far hr))]

theorem normalize_normalize (x : Word) : (normalize (normalize x).1).1 = (normalize x).1 := by
  cases hf : isFinite x with
  | false =>
    rw [normalize_of_not_isFinite hf]
    exact congrArg Prod.fst (normalize_of_not_isFinite (by decide))
  | true =>
    obtain ⟨hf', hr'⟩ := normalize_inRange hf
    rw [normalize_of_inRange hf' hr']

/-! ### `encode` of a normalized angle (R111) -/

/-- The rounding moves each of two values by at most 1/2. -/
theorem abs_rintEven_sub_le {a b : ℚ} (h : |a - b| < 1) : |rintEven a - rintEven b| ≤ 1 := by
  obtain ⟨hlo, hhi⟩ := abs_lt.1 h
  obtain ⟨halo, hahi⟩ := abs_le.1 (rintEven_near a)
  obtain ⟨hblo, hbhi⟩ := abs_le.1 (rintEven_near b)
  have hlt : |((rintEven a - rintEven b : ℤ) : ℚ)| < 2 := by
    rw [abs_lt]
    push_cast
    constructor <;> linarith
  have hlt' : |rintEven a - rintEven b| < 2 := by exact_mod_cast hlt
  omega

theorem abs_sat32_sub_le {j k : ℤ} (h : |j - k| ≤ 1) : |sat32 j - sat32 k| ≤ 1 := by
  rw [abs_le] at h ⊢
  unfold sat32
  omega

/-- The rounding of `normalize` is far below one sample step. -/
theorem encodedInteger_normalize_near {x : Word} (hf : isFinite x = true) :
    |encodedInteger (normalize x).1 - encodedInteger x| ≤ 1 := by
  rw [encodedInteger_eq, encodedInteger_eq, encodedAngle_of_inRange (normalize_inRange hf).2, encodedAngle_eq_reduce x]
  apply abs_rintEven_sub_le
  rw [← sub_div, abs_div, abs_of_pos unit_pos, div_lt_one unit_pos]
  calc |val (normalize x).1 - reduce (val x)| ≤ 1 / 2 ^ 52 := val_normalize_near hf
    _ < unit := by norm_num [unit, piC]

end Sys2Proof.Exact

namespace Sys2Proof.Machine

/-- `NORMALIZE` (R100, R101): the spec's word, ready, and `NV`; all else is kept. -/
theorem exec_normalize (x : Word) (s : State) :
    exec (.normalize x) s = .next
      { s with rdata := (Exact.normalize x).1, rrdy := true,
               nv := s.nv || decide (Flag.nv ∈ (Exact.normalize x).2),
               faultRecorded := s.faultRecorded || !(Exact.normalize x).2.isEmpty } := by
  have hrng : Flag.rng ∉ (Exact.normalize x).2 := by simp [Exact.mem_normalize_flags]
  have hill : Flag.ill ∉ (Exact.normalize x).2 := by simp [Exact.mem_normalize_flags]
  have hunr : Flag.unr ∉ (Exact.normalize x).2 := by simp [Exact.mem_normalize_flags]
  rw [exec_eq, raisedFlags, decide_eq_false hrng, decide_eq_false hill, decide_eq_false hunr]
  simp only [resultWord, Option.isSome_some, Bool.or_true, Bool.or_false]
  rfl

/-- The machine's reduction (R81) is periodic in its quanta (R109). -/
theorem reduce_add_periods (v k : ℤ) : reduce (v + k * twoPiC) = reduce v := by
  unfold reduce
  rw [fmodFloor_eq_emod, fmodFloor_eq_emod, ← sub_sub, Int.sub_mul_emod_self_right]

set_option maxRecDepth 20000 in
/-- The words just beyond `±PI_F` wrap to the other end of the range (R105). -/
theorem normalize_beyond_ends :
    (Exact.normalize 0xC00921FB54442D19#64).1 = 0x400921FB54442D18#64 ∧
      (Exact.normalize 0x400921FB54442D19#64).1 = 0xC00921FB54442D18#64 := by
  rw [← normalizeWord_exact, ← normalizeWord_exact]
  decide

/-! ### The statements about `NORMALIZE` -/

/-- Settles O23: the machine's word and flags are those of the spec's `normalize`. -/
theorem normalizeDeliversTheExactAngle : Obligations.NormalizeDeliversTheExactAngle :=
  fun x s => ⟨_, exec_normalize x s, rfl⟩

/-- Settles O27: `NV` asks for an operand that is not finite. -/
theorem normalizeFlagsExactly : Obligations.NormalizeFlagsExactly := by
  intro x s
  refine ⟨_, exec_normalize x s, rfl, ?_, rfl, rfl, rfl⟩
  simp [Exact.mem_normalize_flags]

/-- Settles O28: such a word is not finite. -/
theorem normalizeNonFiniteDeliversQuietNaN : Obligations.NormalizeNonFiniteDeliversQuietNaN := by
  intro x s hx
  have hf : Exact.isFinite x = false := by rw [Exact.isFinite, hx]; rfl
  refine ⟨_, exec_normalize x s, ?_⟩
  simp [Exact.normalize_of_not_isFinite hf]

/-- Settles O29: in range the reduction is the identity, and so is the rounding of a binary64 value other than 0. -/
theorem normalizeKeepsInRangeOperands : Obligations.NormalizeKeepsInRangeOperands := by
  intro x hf hr
  refine ⟨fun s => ⟨_, exec_normalize x s, ?_⟩, fun h0 => ?_⟩
  · simp only [Exact.normalize_of_inRange hf hr]
  · rw [Exact.reduce_of_abs_le hr, Exact.RNE_val hf h0]

/-- Settles O50: `PI_N` has more significant bits than an operand, so the reduced angle is neither 0 nor `PI_C`. -/
theorem normalizeOutOfRangeIsNormalAndOdd : Obligations.NormalizeOutOfRangeIsNormalAndOdd := by
  refine ⟨fun x hf h => ?_, fun x s hf => ⟨_, _, exec_normalize x s, exec_normalize _ s, Exact.normalize_negated hf⟩⟩
  obtain ⟨hlo, hhi⟩ := Exact.reduce_mem (Exact.val x)
  exact ⟨Exact.piC_lt_of_far h, Exact.le_abs_reduce_of_far h, hlo, lt_of_le_of_ne hhi (Exact.reduce_val_ne_piC x),
    fun s => ⟨_, exec_normalize x s, Exact.normal_normalize_of_far hf h⟩⟩

/-- Settles O51: the reduced angle is at most `PI_C`, which rounds to `PI_F`. -/
theorem normalizeStaysInRange : Obligations.NormalizeStaysInRange := by
  refine ⟨fun x s hf => ?_, fun s => ?_⟩
  · obtain ⟨hlo, hhi⟩ := Exact.reduce_mem (Exact.val x)
    exact ⟨hlo, hhi, _, exec_normalize x s, Exact.normalize_inRange hf⟩
  · obtain ⟨hneg, hpos⟩ := normalize_beyond_ends
    exact ⟨_, _, exec_normalize _ s, hneg, exec_normalize _ s, hpos⟩

/-- Settles O52: the moved angle is the reduced one, and it is rounded once. -/
theorem normalizeGivesAnEquivalentAngle : Obligations.NormalizeGivesAnEquivalentAngle := by
  intro x s hf
  refine ⟨_, exec_normalize x s, ?_, Exact.periods_of_abs_le⟩
  rw [← Exact.reduce_eq]
  exact Exact.val_normalize_near hf

/-- Settles O53: a result is in range or the quiet NaN, and each of them is returned unchanged. -/
theorem normalizeIsIdempotent : Obligations.NormalizeIsIdempotent :=
  fun x s => ⟨_, _, exec_normalize x s, exec_normalize _ _, Exact.normalize_normalize x⟩

/-- Settles O54: the result meets the precondition of `ENCODE`, and its rounding is far below one sample step. -/
theorem normalizeThenEncodeMeetsThePrecondition : Obligations.NormalizeThenEncodeMeetsThePrecondition := by
  intro x s hf
  obtain ⟨hf', hr'⟩ := Exact.normalize_inRange hf
  refine ⟨_, _, _, exec_normalize x s, exec_encode _ _, exec_encode x s, ?_, ?_⟩
  · simp [Exact.mem_encode_flags, hr']
  · show |((Exact.encode (Exact.normalize x).1).1.signExtend 64).toInt - ((Exact.encode x).1.signExtend 64).toInt| ≤ 1
    rw [Exact.toInt_encode_signExtend hf', Exact.toInt_encode_signExtend hf]
    exact Exact.abs_sat32_sub_le (Exact.encodedInteger_normalize_near hf)

/-- Settles O55: both reductions depend on the angle modulo the period alone. -/
theorem reductionIsPeriodic : Obligations.ReductionIsPeriodic :=
  ⟨Exact.reduce_add_periods, reduce_add_periods⟩

end Sys2Proof.Machine
end

section
/-! ## Proofs for `spec/42_control.md`: `NONE` (R120) and the eight register accesses (R121 to R128). -/

namespace Sys2Proof.Machine

/-! ### One access of a register -/

/-- `step_regWrite`, with the write in place of what was pending. -/
theorem step_write (s : State) (m : Nat) (r : Reg) (v : Word) (rest : List HostStep) :
    step { s with pending := .access (regWrite m r v) :: rest } = performWrite r v (s.takeStep rest) :=
  step_regWrite (s := { s with pending := .access (regWrite m r v) :: rest }) rfl

/-- `step_regRead`, with the read in place of what was pending. -/
theorem step_read (s : State) (m : Nat) (r : Reg) (rest : List HostStep) :
    step { s with pending := .access (regRead m r) :: rest } =
      .next ((performRead r (s.takeStep rest)).2.respond m (performRead r (s.takeStep rest)).1) :=
  step_regRead (s := { s with pending := .access (regRead m r) :: rest }) rfl

/-- A read of `CTRL`, `STATUS` or `WDATA` returns the register's word and has no side effect (R122, R125, R127). -/
theorem step_read_keeps (s : State) (m : Nat) {r : Reg} (hr : r ≠ .rdata) (rest : List HostStep) :
    step { s with pending := .access (regRead m r) :: rest } =
      .next { s with pending := rest, hostIndex := s.hostIndex + 1,
                     responses := { master := m, value := s.regWord r } :: s.responses } := by
  rw [step_read]
  cases r with
  | ctrl => rfl
  | status => rfl
  | wdata => rfl
  | rdata => exact absurd rfl hr

/-! ### The operand written to `WDATA` (R120, R123) -/

/-- `NONE` (R120): `ILL`, and with it the fault record; all else is kept. -/
theorem exec_none (v : Word) (s : State) :
    exec (.none v) s = .next { s with ill := true, faultRecorded := true } := rfl

/-- A write of `WDATA` performs the command that `CTRL.OP` selects (R123). -/
theorem step_write_wdata (s : State) (m : Nat) (v : Word) (rest : List HostStep) :
    step { s with pending := .access (regWrite m .wdata v) :: rest } = exec (decodeOp s.op v) (s.takeStep rest) :=
  step_wdata (s := { s with pending := .access (regWrite m .wdata v) :: rest }) rfl

/-- The write of a command's operand to `WDATA`, where `CTRL.OP` selects the command, performs it. -/
theorem step_performs (i : Instr) (s : State) (m : Nat) (rest : List HostStep) :
    step { s with op := i.op, pending := .access (regWrite m .wdata i.operand) :: rest } =
      exec i { s with op := i.op, pending := rest, hostIndex := s.hostIndex + 1 } := by
  have hstep := step_write_wdata { s with op := i.op } m i.operand rest
  rwa [decodeOp_op] at hstep

/-- The bytes of the word `CTRL` holds and of an operand decode as the command that `CTRL.OP` selects (R64). -/
theorem decode_ctrlWord (s : State) (v : Word) (tail : List Byte) :
    decode (leBytes 8 s.ctrlWord.toNat ++ leBytes 8 v.toNat ++ tail) = .ok (decodeOp s.op v, tail) := by
  rw [decode_bytes, decodeWords, opField_ctrlWord]

/-! ### The result taken from `RDATA` (R124) -/

/-- A read of `RDATA` returns it, clears `RRDY`, and where `RRDY` was 0 raises `UNR`. -/
theorem readRdata_eq (s : State) :
    readRdata s = (s.rdata, { s with rrdy := false, unr := s.unr || !s.rrdy,
                                     faultRecorded := s.faultRecorded || !s.rrdy }) := by
  unfold readRdata
  cases s.rrdy with
  | true => simp [State.clearReady]
  | false => simp [State.clearReady, State.raise]

/-! ### The bits of `STATUS` (R125) -/

theorem statusWord_rrdy (s : State) : s.statusWord.getLsbD 0 = s.rrdy := by
  simp only [State.statusWord, BitVec.getLsbD_setWidth, BitVec.getLsbD_append]
  simp

theorem statusWord_flagBit (s : State) (f : Flag) : s.statusWord.getLsbD (flagBit f) = s.flag f := by
  simp only [State.statusWord, BitVec.getLsbD_setWidth, BitVec.getLsbD_append]
  cases f <;> simp [flagBit]

/-- The five bits of `STATUS` stand in bits 4:0; the word is zero above them. -/
theorem statusWord_above (s : State) {k : Nat} (hk : 5 ≤ k) : s.statusWord.getLsbD k = false := by
  rw [State.statusWord, BitVec.getLsbD_setWidth, BitVec.getLsbD_of_ge _ k hk, Bool.and_false]

/-! ### The statements -/

/-- Settles O9: the command is the one `CTRL.OP` selects, and its effect is the spec's by the lemmas on `exec`. -/
theorem writeWdataPerformsTheSelectedOperation : Obligations.WriteWdataPerformsTheSelectedOperation :=
  fun s m v rest =>
    ⟨⟨_, (step_performs (.none v) s m rest).trans (exec_none v _), rfl⟩,
      ⟨_, (step_performs (.encode v) s m rest).trans (exec_encode v _), rfl⟩,
      ⟨_, (step_performs (.decode v) s m rest).trans (exec_decode v _), rfl⟩,
      ⟨_, (step_performs (.normalize v) s m rest).trans (exec_normalize v _), rfl⟩⟩

/-- Settles O4: the decoder on bytes and the port read the same command. -/
theorem stepRunsTheDecodedCommand : Obligations.StepRunsTheDecodedCommand := by
  intro s m v rest i tail h
  rw [decode_ctrlWord] at h
  obtain ⟨rfl, -⟩ := Prod.mk.inj (Except.ok.inj h)
  exact step_write_wdata s m v rest

/-- Settles O7: the write of `CTRL` is `setOp` of the two low bits. -/
theorem writeCtrlConfigures : Obligations.WriteCtrlConfigures := fun s m v rest => step_write s m .ctrl v rest

/-- Settles O8: the word read is `CTRL.OP`, which has two bits, extended by zeros. -/
theorem readCtrlReturnsOp : Obligations.ReadCtrlReturnsOp := by
  intro s m rest
  have hvalue : s.ctrlWord.toNat = s.op.toNat := BitVec.toNat_setWidth_of_le (by decide)
  refine ⟨s.ctrlWord, step_read_keeps s m (by decide) rest, hvalue, ?_⟩
  have hop : s.op.toNat < 4 := s.op.isLt
  omega

/-- Settles O10: the step answers what `readRdata` gives. -/
theorem readRdataReturnsTheResult : Obligations.ReadRdataReturnsTheResult := by
  intro s m rest
  refine ⟨_, step_read s m .rdata rest, ?_⟩
  rw [performRead, readRdata_eq]
  rfl

/-- Settles O11: the word read is `statusWord`, bit by bit. -/
theorem readStatusReturnsTheFlags : Obligations.ReadStatusReturnsTheFlags :=
  fun s m rest =>
    ⟨s.statusWord, step_read_keeps s m (by decide) rest, statusWord_rrdy s, statusWord_flagBit s .nv,
      statusWord_flagBit s .rng, statusWord_flagBit s .ill, statusWord_flagBit s .unr, fun _ => statusWord_above s⟩

/-- Settles O12: the write of `STATUS` is `clearFlags`, which keeps a flag where it stands and its bit is 0. -/
theorem writeStatusClearsOnes : Obligations.WriteStatusClearsOnes := by
  intro s m v rest
  simp only [Bool.if_false_left, Bool.decide_eq_true, Bool.and_comm (!_)]
  exact step_write s m .status v rest

/-- Settles O13: `WDATA` stores nothing. -/
theorem readWdataReturnsZero : Obligations.ReadWdataReturnsZero :=
  fun s m rest => step_read_keeps s m (by decide) rest

/-- Settles O14: the write of `RDATA` leaves the state as it is. -/
theorem writeRdataIsIgnored : Obligations.WriteRdataIsIgnored := fun s m v rest => step_write s m .rdata v rest

/-- Settles O20: `NONE` raises a flag and does nothing else. -/
theorem noneRaisesIllAndNothingElse : Obligations.NoneRaisesIllAndNothingElse := fun v s => ⟨_, exec_none v s, rfl⟩

end Sys2Proof.Machine
end

section
/-! ## Proofs for `spec/60_exceptions.md`: which flag a step raises (R142 to R145, R149), and the fault record (R154). -/

namespace Sys2Proof.Machine

/-! ### The flag that a step raises -/

/-- Which flags a command raises: `NONE` raises `ILL` (R144), an operand that is not finite `NV` (R142), and a finite
operand of `ENCODE` out of range `RNG` (R143). -/
theorem mem_raisedFlags (i : Instr) (f : Flag) :
    f ∈ raisedFlags i ↔
      (f = .ill ∧ i.op = 0b00#2) ∨
        (f = .nv ∧ (i.op = 0b01#2 ∨ i.op = 0b11#2) ∧ Exact.isFinite i.operand = false) ∨
        (f = .rng ∧ i.op = 0b01#2 ∧ Exact.isFinite i.operand = true ∧ Exact.piF < |Exact.val i.operand|) := by
  cases i with
  | none v => simp [raisedFlags, Instr.op]
  | encode x => simp [raisedFlags, Instr.op, Instr.operand, Exact.mem_encode_flags]
  | decode v => simp [raisedFlags, Instr.op]
  | normalize x => simp [raisedFlags, Instr.op, Instr.operand, Exact.mem_normalize_flags]

/-- The next host step raises `f`: it writes the operand of a command that raises `f`, or it reads `RDATA` with no result
pending, which raises `UNR` (R145). -/
def Raises (s : State) (f : Flag) : Prop :=
  (∃ v, NextIs s .wdata (.write v) ∧ f ∈ raisedFlags (decodeOp s.op v)) ∨
    (f = .unr ∧ s.rrdy = false ∧ NextIs s .rdata .read)

/-- `Raises` in the terms of R142 to R145: each flag with the accesses and operands that raise it. -/
theorem raises_iff (s : State) (f : Flag) :
    Raises s f ↔
      (f = .ill ∧ s.op = 0b00#2 ∧ ∃ v, NextIs s .wdata (.write v)) ∨
      (f = .nv ∧ (s.op = 0b01#2 ∨ s.op = 0b11#2) ∧ ∃ v, NextIs s .wdata (.write v) ∧ Exact.isFinite v = false) ∨
      (f = .rng ∧ s.op = 0b01#2 ∧
        ∃ v, NextIs s .wdata (.write v) ∧ Exact.isFinite v = true ∧ Exact.piF < |Exact.val v|) ∨
      (f = .unr ∧ s.rrdy = false ∧ NextIs s .rdata .read) := by
  simp only [Raises, mem_raisedFlags, op_of_decodeOp, operand_of_decodeOp]
  constructor
  · rintro (⟨v, hn, ⟨hf, hop⟩ | ⟨hf, hop, hv⟩ | ⟨hf, hop, hv⟩⟩ | hunr)
    · exact .inl ⟨hf, hop, v, hn⟩
    · exact .inr (.inl ⟨hf, hop, v, hn, hv⟩)
    · exact .inr (.inr (.inl ⟨hf, hop, v, hn, hv⟩))
    · exact .inr (.inr (.inr hunr))
  · rintro (⟨hf, hop, v, hn⟩ | ⟨hf, hop, v, hn, hv⟩ | ⟨hf, hop, v, hn, hv⟩ | hunr)
    · exact .inl ⟨v, hn, .inl ⟨hf, hop⟩⟩
    · exact .inl ⟨v, hn, .inr (.inl ⟨hf, hop, hv⟩)⟩
    · exact .inl ⟨v, hn, .inr (.inr ⟨hf, hop, hv⟩)⟩
    · exact .inr hunr

/-- A command raises at most one flag. -/
theorem raisedFlags_unique {i : Instr} {f g : Flag} (hf : f ∈ raisedFlags i) (hg : g ∈ raisedFlags i) : f = g := by
  cases i with
  | none v => exact (List.mem_singleton.1 hf).trans (List.mem_singleton.1 hg).symm
  | encode x =>
    rcases (Exact.mem_encode_flags x f).1 hf with ⟨rfl, hv⟩ | ⟨rfl, hv, -⟩ <;>
      rcases (Exact.mem_encode_flags x g).1 hg with ⟨rfl, hv'⟩ | ⟨rfl, hv', -⟩
    · rfl
    · simp [hv] at hv'
    · simp [hv] at hv'
    · rfl
  | decode v => cases hf
  | normalize x => exact ((Exact.mem_normalize_flags x f).1 hf).1.trans ((Exact.mem_normalize_flags x g).1 hg).1.symm

/-- The next host step raises at most one flag (R149). -/
theorem raises_unique {s : State} {f g : Flag} (hf : Raises s f) (hg : Raises s g) : f = g := by
  rcases hf with ⟨v, hn, hf⟩ | ⟨rfl, -, hn⟩ <;> rcases hg with ⟨u, hn', hg⟩ | ⟨rfl, -, hn'⟩
  · obtain ⟨-, rfl⟩ := nextIs_write_unique hn hn'
    exact raisedFlags_unique hf hg
  · exact (nextIs_write_not_read hn hn').elim
  · exact (nextIs_write_not_read hn' hn).elim
  · rfl

/-! ### What a step does to the flags and to the fault record -/

/-- From `s` to `t` no flag is newly set but those in `p`, and the fault record is set if `p` holds a flag and is
otherwise kept. -/
structure State.RaisesTo (s : State) (p : Flag → Prop) (t : State) : Prop where
  record : t.faultRecorded = true ↔ s.faultRecorded = true ∨ ∃ f, p f
  flag : ∀ f, t.flag f = true → s.flag f = true ∨ p f

theorem State.RaisesTo.congr {s t : State} {p q : Flag → Prop} (h : s.RaisesTo p t) (hpq : ∀ f, p f ↔ q f) :
    s.RaisesTo q t := by
  obtain rfl : p = q := funext fun f => propext (hpq f)
  exact h

/-- A command raises its flags. -/
theorem exec_raisesTo {i : Instr} {s t : State} (h : exec i s = .next t) : s.RaisesTo (· ∈ raisedFlags i) t := by
  obtain rfl := Host.Outcome.next.inj ((exec_eq i s).symm.trans h)
  refine ⟨?_, fun f hf => by cases f <;> simpa using hf⟩
  simp [List.eq_nil_iff_forall_not_mem]

/-- A read of `RDATA` raises `UNR` where no result is pending. -/
theorem readRdata_raisesTo (s : State) : s.RaisesTo (fun f => f = .unr ∧ s.rrdy = false) (readRdata s).2 := by
  rw [readRdata_eq]
  exact ⟨by simp, fun f hf => by cases f <;> simpa using hf⟩

/-- Where the next host step is neither a write of `WDATA` nor a read of `RDATA`, `Raises` holds of no flag: it is enough
that no flag is newly set and the fault record is kept. -/
theorem raisesTo_of_quiet {s t : State} (hwrite : ∀ v, ¬ NextIs s .wdata (.write v)) (hread : ¬ NextIs s .rdata .read)
    (hrecord : t.faultRecorded = s.faultRecorded) (hflag : ∀ f, t.flag f = true → s.flag f = true) :
    s.RaisesTo (Raises s) t := by
  have hnone : ¬ ∃ f, Raises s f := by
    rintro ⟨f, ⟨v, hn, -⟩ | ⟨-, -, hn⟩⟩
    · exact hwrite v hn
    · exact hread hn
  exact ⟨by rw [hrecord, or_iff_left hnone], fun f hf => .inl (hflag f hf)⟩

/-- What a step that answers a next state does to the flags and to the fault record. -/
theorem step_raisesTo {s t : State} (h : step s = .next t) : s.RaisesTo (Raises s) t := by
  rcases step_effect h with ⟨hempty, rfl⟩ | ⟨hn, -, -, -, hrecord, hflag⟩ | ⟨rest, rfl, a, hp, ht⟩ |
    ⟨rest, m, v, _, rfl, rfl, r, hr, hn⟩ | ⟨rest, m, v, rfl, hn⟩ | ⟨rest, v, hn, rfl⟩ | ⟨rest, v, hn, rfl⟩ |
    ⟨rest, v, hn, he⟩ | ⟨rest, v, hn, rfl⟩
  · exact raisesTo_of_quiet (fun _ => empty_not_nextIs hempty) (empty_not_nextIs hempty) rfl fun _ => id
  · exact raisesTo_of_quiet (fun _ => nextIsReset_not_nextIs hn) (nextIsReset_not_nextIs hn) hrecord
      fun f hf => by simp [hflag f] at hf
  · exact raisesTo_of_quiet (fun _ => outside_not_nextIs hp ht) (outside_not_nextIs hp ht) rfl fun _ => id
  · exact raisesTo_of_quiet (fun _ hn' => nextIs_write_not_read hn' hn) (fun hn' => hr (nextIs_read_unique hn hn')) rfl
      fun _ => id
  · have hread := readRdata_raisesTo (s.takeStep rest)
    refine State.RaisesTo.congr ⟨hread.record, hread.flag⟩ fun f => ⟨fun ⟨hf, hr⟩ => .inr ⟨hf, hr, hn⟩, ?_⟩
    rintro (⟨u, hn', -⟩ | ⟨hf, hr, -⟩)
    · exact (nextIs_write_not_read hn' hn).elim
    · exact ⟨hf, hr⟩
  · exact raisesTo_of_quiet (fun _ hn' => by cases (nextIs_write_unique hn hn').1) (nextIs_write_not_read hn) rfl
      fun f hf => (s.setOp_flag (opField v) f).symm.trans hf
  · refine raisesTo_of_quiet (fun _ hn' => by cases (nextIs_write_unique hn hn').1) (nextIs_write_not_read hn) rfl
      fun f hf => ?_
    rw [State.clearFlags_flag] at hf
    exact (Bool.and_eq_true_iff.1 hf).1
  · have hexec := exec_raisesTo he
    refine State.RaisesTo.congr ⟨hexec.record, hexec.flag⟩ fun f => ⟨fun hf => .inl ⟨v, hn, hf⟩, ?_⟩
    rintro (⟨u, hn', hf⟩ | ⟨-, -, hn'⟩)
    · obtain ⟨-, rfl⟩ := nextIs_write_unique hn hn'
      exact hf
    · exact (nextIs_write_not_read hn hn').elim
  · exact raisesTo_of_quiet (fun _ hn' => by cases (nextIs_write_unique hn hn').1) (nextIs_write_not_read hn) rfl
      fun _ => id

/-- After a reset, also one that coincides with an access, the unit is in the reset state (R149, R160). -/
theorem step_reset_sameUnit {s t : State} (hn : NextIsReset s) (h : step s = .next t) : t.SameUnit s.unitReset := by
  obtain ⟨_, rest, hp, rfl | ⟨a, rfl⟩⟩ := hn <;> rw [step_pending s _ rest hp] at h <;> cases h
  · exact ⟨rfl, rfl, rfl, rfl, rfl, rfl, rfl⟩
  · rcases cutShort_eq a (s.takeStep rest) with he | ⟨v, he⟩ <;> rw [he] <;>
      exact ⟨rfl, rfl, rfl, rfl, rfl, rfl, rfl⟩

/-! ### The statements -/

/-- Settles O37: a flag that stands after a step stood before it or was raised by it, and raising records a fault. -/
theorem raisedFlagsAreRecordedForGood : Obligations.RaisedFlagsAreRecordedForGood := by
  intro s t h
  obtain ⟨hrecord, hflag⟩ := step_raisesTo h
  exact ⟨fun hs f hf => hrecord.2 ((hflag f hf).imp (hs f) fun hraised => ⟨f, hraised⟩), fun hs => hrecord.2 (.inl hs)⟩

/-- Settles O31: a newly set flag was raised by the step, which raises at most one. -/
theorem oneAccessRaisesAtMostOneFlag : Obligations.OneAccessRaisesAtMostOneFlag := by
  intro s t h
  have hnew : ∀ f, s.flag f = false → t.flag f = true → Raises s f := fun f hs ht =>
    ((step_raisesTo h).flag f ht).resolve_left (by simp [hs])
  refine ⟨fun f g hf hf' hg hg' => raises_unique (hnew f hf hf') (hnew g hg hg'), fun hs ht => ?_, fun hs ht => ?_,
    fun hs ht => ?_, fun hs ht => ?_, fun hn => ?_⟩
  · simpa [raises_iff] using hnew .ill hs ht
  · obtain ⟨hop, v, hn, -⟩ : (s.op = 0b01#2 ∨ s.op = 0b11#2) ∧
        ∃ v, NextIs s .wdata (.write v) ∧ Exact.isFinite v = false := by
      simpa [raises_iff] using hnew .nv hs ht
    exact ⟨by rcases hop with hop | hop <;> simp [hop], v, hn⟩
  · obtain ⟨hop, v, hn, -⟩ : s.op = 0b01#2 ∧
        ∃ v, NextIs s .wdata (.write v) ∧ Exact.isFinite v = true ∧ Exact.piF < |Exact.val v| := by
      simpa [raises_iff] using hnew .rng hs ht
    exact ⟨by simp [hop], v, hn⟩
  · obtain ⟨-, hn⟩ : s.rrdy = false ∧ NextIs s .rdata .read := by simpa [raises_iff] using hnew .unr hs ht
    exact hn
  · have hunit := step_reset_sameUnit hn h
    exact ⟨hunit.op, hunit.rdata, hunit.rrdy, fun f => (hunit.flag f).trans (by cases f <;> rfl)⟩

/-- Settles O40: the accesses that break the contract are those that raise a flag. -/
theorem faultRecordedExactlyByBrokenContracts : Obligations.FaultRecordedExactlyByBrokenContracts := by
  intro s t h
  rw [(step_raisesTo h).record]
  refine or_congr_right ⟨?_, ?_⟩
  · simp only [raises_iff]
    rintro ⟨f, ⟨-, hill⟩ | ⟨-, hop | hop, v, hn, hv⟩ | ⟨-, hop, v, hn, -, hv⟩ | ⟨-, hunr⟩⟩
    · exact .inl hill
    · exact .inr (.inl ⟨hop, v, hn, .inl hv⟩)
    · exact .inr (.inr (.inl ⟨hop, v, hn, hv⟩))
    · exact .inr (.inl ⟨hop, v, hn, .inr hv⟩)
    · exact .inr (.inr (.inr hunr))
  · simp only [raises_iff]
    rintro (hill | ⟨hop, v, hn, hv⟩ | ⟨hop, v, hn, hv⟩ | hunr)
    · exact ⟨.ill, .inl ⟨rfl, hill⟩⟩
    · cases hf : Exact.isFinite v with
      | false => exact ⟨.nv, .inr (.inl ⟨rfl, .inl hop, v, hn, hf⟩)⟩
      | true => exact ⟨.rng, .inr (.inr (.inl ⟨rfl, hop, v, hn, hf, hv.resolve_left (by simp [hf])⟩))⟩
    · exact ⟨.nv, .inr (.inl ⟨rfl, .inr hop, v, hn, hv⟩)⟩
    · exact ⟨.unr, .inr (.inr (.inr ⟨rfl, hunr⟩))⟩

end Sys2Proof.Machine
end

section
/-! ## Proofs for `spec/70_reset_and_hazards.md`: a reset during an access (R160), the accesses straight after a reset
(R162), and the invariants at reset. -/

namespace Sys2Proof.Machine

/-! ### The step that resets (R160) -/

/-- Every reset, between accesses or instead of completing `a`, resets the unit and adds at most one response to the
master of `a`. -/
theorem performHostStep_reset {a : Access} {h : HostStep} (hreset : h = .reset ∨ h = .resetDuring a) (s : State) :
    performHostStep h s = .next s.unitReset ∨
      ∃ v, performHostStep h s = .next (s.unitReset.respond a.master v) := by
  rcases hreset with rfl | rfl
  · exact .inl rfl
  · exact (cutShort_eq a s).imp (congrArg _) fun ⟨v, hv⟩ => ⟨v, congrArg _ hv⟩

/-! ### The statements -/

/-- Settles O2: the step performs the reset on the state with the host step taken off the list. -/
theorem resetWinsOverAnAccess : Obligations.ResetWinsOverAnAccess := by
  intro s a rest h hreset
  simp only [step_cons]
  rcases performHostStep_reset hreset { s with pending := rest, hostIndex := s.hostIndex + 1 } with ht | ⟨v, ht⟩
  · exact ⟨_, ht, rfl, .inl rfl⟩
  · exact ⟨_, ht, rfl, .inr ⟨v, rfl⟩⟩

/-- Settles O3: after a reset `CTRL.OP` is NONE, so the write of `WDATA` performs `NONE`; `RRDY` is 0 and `RDATA` zero, so
the read returns zero with nothing pending. -/
theorem skippedConfigureIsCaughtAfterReset : Obligations.SkippedConfigureIsCaughtAfterReset := by
  intro s m v rest
  constructor
  · have hwrite := (step_performs (.none v) s.unitReset m rest).trans (exec_none v _)
    exact ⟨_, hwrite, rfl, rfl⟩
  · have hread := step_read s.unitReset m .rdata rest
    rw [performRead, readRdata_eq] at hread
    exact ⟨_, hread, rfl, rfl⟩

/-- Settles O39: no flag stands after reset, and zero is a result word. -/
theorem resetMeetsTheInvariants : Obligations.ResetMeetsTheInvariants := by
  have hclear (f : Flag) : State.reset.flag f = false := by cases f <;> rfl
  exact ⟨fun f hf => by simp [hclear f] at hf, isResultWord_zero, rfl⟩

end Sys2Proof.Machine
end
